-- ==== Sys2Proof/Word.lean ====
section
/-!
DEFINITION. The word types of the CANPGN block (spec/00_scope.md R10, R16): bytes, the 32-bit MMIO word and
identifier container, the 64-bit operand registers, and the 17-bit PGN value.
-/

namespace Sys2Proof

/-- A byte of a data buffer (spec/00_scope.md R16). -/
abbrev Byte := BitVec 8

/-- An MMIO word, a command word, or the 32-bit container of an identifier (spec/00_scope.md R10). -/
abbrev Word32 := BitVec 32

/-- An operand register, the result register, a timestamp, or a packed payload word (spec/00_scope.md R10). -/
abbrev Word64 := BitVec 64

/-- A Parameter Group Number as produced, 0 to 0x1FFFF (spec/00_scope.md R10). -/
abbrev PgnValue := BitVec 17

end Sys2Proof
end

