-- ==== Sys2Proof/Syntax.lean ====
section
/-!
DEFINITION. The commands of the block: one constructor per row of spec/opcode_table.json (spec/30_encoding.md R83).
A command's operands other than SLOT and DLC are read from the operand registers when it executes (R84).
-/

namespace Sys2Proof

/-- A command. SLOT and DLC are the numbers the command word carries (spec/30_encoding.md R81); their ranges are in
`Instr.wf`. -/
inductive Instr where
  /-- `SA`, source address (spec/40_pgn_codec.md R106). -/
  | sa
  /-- `PS`, PDU specific (spec/40_pgn_codec.md R107). -/
  | ps
  /-- `PF`, PDU format (spec/40_pgn_codec.md R108). -/
  | pf
  /-- `DP`, data page (spec/40_pgn_codec.md R109). -/
  | dp
  /-- `EDP`, extended data page (spec/40_pgn_codec.md R110). -/
  | edp
  /-- `PRIO`, priority (spec/40_pgn_codec.md R111). -/
  | prio
  /-- `PGN`, parameter group number of an identifier (spec/40_pgn_codec.md R112). -/
  | pgn
  /-- `CANID`, a canonical identifier for a PGN (spec/40_pgn_codec.md R113). -/
  | canid
  /-- `SAMEPGN`, PGN equality of two identifiers (spec/40_pgn_codec.md R114). -/
  | samepgn
  /-- `ACOMPILE k`, compile a descriptor into accessor slot k (spec/41_bit_accessor.md R141). -/
  | acompile (slot : Nat)
  /-- `ACALL k`, call accessor slot k (spec/41_bit_accessor.md R142). -/
  | acall (slot : Nat)
  /-- `FRAME_IN n`, take a frame of n data bytes from the host (spec/42_fast_packet.md R178). -/
  | frameIn (dlc : Nat)
deriving DecidableEq, Repr

end Sys2Proof
end

