-- ==== Sys2Proof/WellFormed.lean ====
section
/-!
DEFINITION. Which commands a command word can carry: SLOT is an 8-bit field and DLC a 4-bit field
(spec/30_encoding.md R81, R82, R90). Whether a slot exists or a data length is legal is checked when the command
executes (R89), not here.
-/

namespace Sys2Proof

/-- The command's fields fit the command word (spec/30_encoding.md R90: `k` decimal 0 to 255, `n` decimal 0 to 15). -/
def Instr.wf : Instr → Bool
  | .sa => true
  | .ps => true
  | .pf => true
  | .dp => true
  | .edp => true
  | .prio => true
  | .pgn => true
  | .canid => true
  | .samepgn => true
  | .acompile slot => decide (slot ≤ 255)
  | .acall slot => decide (slot ≤ 255)
  | .frameIn dlc => decide (dlc ≤ 15)

end Sys2Proof
end

