-- ==== Sys2Proof/Decode.lean ====
section
/-!
DEFINITION. The decoder of spec/30_encoding.md R89, total on every 32-bit word and rejecting by name, and after it
the encoder, written from the formats of R82 and the opcode map of R83.
-/

namespace Sys2Proof

/-- Why a word is no command (spec/30_encoding.md R86, R87). -/
inductive Illegal where
  /-- The opcode is not in the opcode map (R87). -/
  | illegalOpcode
  /-- A reserved bit of the opcode's format is not 0 (R86). -/
  | reservedBits
deriving DecidableEq, Repr

/-- What the decoder answers: every word is one defined command or illegal with one reason (R88). -/
inductive Decoded where
  | instr (i : Instr)
  | illegal (r : Illegal)
deriving DecidableEq, Repr

/-- `OPCODE`, bits 31:24 of a command word (R81). -/
def opcodeField (w : Word32) : Byte := w.extractLsb' 24 8

/-- `SLOT`, bits 23:16 of a command word (R81). -/
def slotField (w : Word32) : Nat := (w.extractLsb' 16 8).toNat

/-- `DLC`, bits 3:0 of a command word (R81). -/
def dlcField (w : Word32) : Nat := (w.extractLsb' 0 4).toNat

/-- Format Z: bits 23:0 reserved (R82). -/
def formatZ (w : Word32) (i : Instr) : Decoded :=
  if w.extractLsb' 0 24 = 0 then .instr i else .illegal .reservedBits

/-- Format S: a slot in bits 23:16, bits 15:0 reserved (R82). -/
def formatS (w : Word32) (mk : Nat → Instr) : Decoded :=
  if w.extractLsb' 0 16 = 0 then .instr (mk (slotField w)) else .illegal .reservedBits

/-- Format F: a data length in bits 3:0, bits 23:4 reserved (R82). -/
def formatF (w : Word32) (mk : Nat → Instr) : Decoded :=
  if w.extractLsb' 4 20 = 0 then .instr (mk (dlcField w)) else .illegal .reservedBits

/-- `Decode(w)` of spec/30_encoding.md R89. -/
def decode (w : Word32) : Decoded :=
  match (opcodeField w).toNat with
  | 0x01 => formatZ w .sa
  | 0x02 => formatZ w .ps
  | 0x03 => formatZ w .pf
  | 0x04 => formatZ w .dp
  | 0x05 => formatZ w .edp
  | 0x06 => formatZ w .prio
  | 0x07 => formatZ w .pgn
  | 0x08 => formatZ w .canid
  | 0x09 => formatZ w .samepgn
  | 0x10 => formatS w .acompile
  | 0x11 => formatS w .acall
  | 0x20 => formatF w .frameIn
  | _ => .illegal .illegalOpcode

/-- The opcode of a command (R83). -/
def opcodeOf : Instr → Byte
  | .sa => 0x01
  | .ps => 0x02
  | .pf => 0x03
  | .dp => 0x04
  | .edp => 0x05
  | .prio => 0x06
  | .pgn => 0x07
  | .canid => 0x08
  | .samepgn => 0x09
  | .acompile _ => 0x10
  | .acall _ => 0x11
  | .frameIn _ => 0x20

/-- A format-Z word (R82). -/
def wordZ (op : Byte) : Word32 := op ++ 0#24

/-- A format-S word (R82). -/
def wordS (op : Byte) (slot : Nat) : Word32 := op ++ BitVec.ofNat 8 slot ++ 0#16

/-- A format-F word (R82). -/
def wordF (op : Byte) (dlc : Nat) : Word32 := op ++ 0#20 ++ BitVec.ofNat 4 dlc

/-- The command word of a command (R82, R83). A field that does not fit is cut to its width; `Instr.wf` says that it
fits. -/
def encode (i : Instr) : Word32 :=
  match i with
  | .sa => wordZ (opcodeOf i)
  | .ps => wordZ (opcodeOf i)
  | .pf => wordZ (opcodeOf i)
  | .dp => wordZ (opcodeOf i)
  | .edp => wordZ (opcodeOf i)
  | .prio => wordZ (opcodeOf i)
  | .pgn => wordZ (opcodeOf i)
  | .canid => wordZ (opcodeOf i)
  | .samepgn => wordZ (opcodeOf i)
  | .acompile slot => wordS (opcodeOf i) slot
  | .acall slot => wordS (opcodeOf i) slot
  | .frameIn dlc => wordF (opcodeOf i) dlc

/-- The command the decoder reads from a word given as the opcode table numbers its bits: a command is one 32-bit
word (R80), so the bits below `nbits` are that word's, and the bits above are 0. -/
def decodeTableWord (nbits w : Nat) : Option Instr :=
  match decode (BitVec.ofNat 32 (w % 2 ^ nbits)) with
  | .instr i => some i
  | .illegal _ => none

end Sys2Proof
end

