-- ==== Sys2Proof/Config.lean ====
section
/-!
DEFINITION. What a given block fixes: the OPEN parameters of spec/00_scope.md R7, R8, R12 and spec/20_memory.md R50,
and the constants the spec gives for every block. The parameters stand in the state (field `cfg`), so every
statement about all states holds for every value of them; no step changes them (spec/10_state.md R47).
-/

namespace Sys2Proof

/-- The parameters of one block (spec/93_implementation_defined.md U17). -/
structure Config where
  /-- `CANPGN_BASE`, where the platform puts the register window (spec/20_memory.md R50). -/
  base : Nat
  /-- `N_ACC`, the number of accessor slots (spec/00_scope.md R7). -/
  nAcc : Nat
  /-- `N_FP`, the number of reassembly slots (spec/00_scope.md R8). -/
  nFp : Nat
  /-- `FP_PGNS`, the PGNs fed to the reassembler (spec/00_scope.md R12). Only membership is ever read. -/
  fpPgns : List PgnValue
deriving DecidableEq, Repr

/-- The ranges the spec gives its parameters (spec/00_scope.md R7, R8). -/
abbrev Config.Legal (c : Config) : Prop :=
  1 ≤ c.nAcc ∧ c.nAcc ≤ 64 ∧ 1 ≤ c.nFp ∧ c.nFp ≤ 255

/-- The parameter values of the spec's own vectors (spec/95_test_vectors.md): 16 accessor slots, 4 reassembly slots,
the one fast-packet PGN 126996. DESIGN CHOICE for `State.reset` (notes/assumptions/3.md): unsafe only for a claim
about `State.reset` itself, since the parameters are OPEN. -/
def Config.vectors : Config :=
  { base := 0, nAcc := 16, nFp := 4, fpPgns := [0x1F014#17] }

/-- `MAX_FP_LEN`, the capacity in bytes of each reassembly buffer and of `MBUF` (spec/00_scope.md R9). -/
def Config.maxFpLen : Nat := 223

/-- The first PDU format byte of the PDU2 range (spec/40_pgn_codec.md R103). -/
def Config.pdu2Min : Byte := 0xF0#8

/-- The source address `canId` puts in (spec/40_pgn_codec.md R104). -/
def Config.defaultSa : Byte := 0xFE#8

/-- `INFO[31:24]`, the revision number of the register layout (spec/10_state.md R33). -/
def Config.layoutRevision : Byte := 0x01#8

end Sys2Proof
end

