-- ==== Sys2Proof/Machine/State.lean ====
section
/-!
DEFINITION. The state of the block as plain data (spec/10_state.md R21), the reasons a step of the model can stop,
and the state after reset (spec/10_state.md R45).
-/

namespace Sys2Proof.Machine

/-- Why the MACHINE stops. It has no constructor: no step of this block stops (spec/60_exceptions.md R216, "The block
never stops by itself"). A fault of the spec (R200) is entered in a NEXT state, `status`, and never stands here.
DEDUCED, safe (notes/assumptions/15.md). -/
inductive Fault where
deriving DecidableEq, Repr

/-- Why the model gives an instruction no meaning. -/
inductive Refusal where
  /-- Raised by an arm of `exec` whose instruction has no meaning yet; no arm raises it now. Safe. -/
  | notModelled (mnemonic : String)
deriving DecidableEq, Repr

/-- The fault codes of spec/60_exceptions.md R201. -/
inductive FaultCode where
  | illegalOpcode
  | reservedBits
  | badSlot
  | badDescriptor
  | slotEmpty
  | range
  | badDlc
deriving DecidableEq, Repr

/-- A byte store: address and byte pairs with strictly rising addresses and no byte 0 listed. An unlisted byte
reads 0, the reset value spec/10_state.md R45 gives `FDATA`, `MBUF` and `BUF` (notes/assumptions/12.md). -/
abbrev Memory := List Host.Cell

/-- The data sources of an accessor (spec/20_memory.md R58); code 3 is reserved and no slot holds it
(spec/41_bit_accessor.md R131). -/
inductive Source where
  | frame
  | msg
  | opb
deriving DecidableEq, Repr

/-- The fields of a compiled accessor slot, `V` = 1 (spec/10_state.md R39). With `V` they are 29 bits; R21's table says
31 and names no other field. The model holds R39's fields, DESIGN CHOICE, safe: R40 reads no other bit
(notes/assumptions/21.md). -/
structure Accessor where
  /-- `START`, the buffer bit index of the field's first bit. -/
  start : BitVec 16
  /-- `LEN`, 1 to 64. -/
  len : BitVec 7
  /-- `BE`: true = big-endian. -/
  be : Bool
  /-- `SG`: true = signed. -/
  sg : Bool
  /-- `W64`: true = 64-bit accessor. -/
  w64 : Bool
  /-- `SRC`. -/
  src : Source
deriving DecidableEq, Repr

/-- The fields of a reassembly slot in use, `V` = 1 (spec/10_state.md R41). -/
structure FpSlot where
  /-- `PGN` of the key. -/
  pgn : PgnValue
  /-- `SA` of the key. -/
  sa : Byte
  /-- `TOTAL`, the declared total length in bytes. -/
  total : Byte
  /-- `COUNT`, the bytes accumulated so far. -/
  count : Byte
  /-- `SEQ`, the sequence identifier of the first fragment. -/
  seq : BitVec 3
  /-- `NEXT`, the frame index expected next. -/
  next : BitVec 6
  /-- `BUF[0..222]`. -/
  buf : Memory
deriving DecidableEq, Repr

/-- One event at the message output port (spec/42_fast_packet.md R176). -/
structure Msg where
  time : Word64
  id : Word32
  pgn : PgnValue
  sa : Byte
  len : Byte
  bytes : List Byte
deriving DecidableEq, Repr

/-- The fields of `STATUS` (spec/10_state.md R27); its other bits are hardwired to 0 (R31). -/
structure Status where
  /-- `FAULT`: the block is halted. -/
  fault : Bool
  /-- `FCODE`. -/
  fcode : Byte
  /-- `FOP`. -/
  fop : Byte
deriving DecidableEq, Repr

/-- The widths of an MMIO access (spec/20_memory.md R51). -/
inductive Width where
  | w8
  | w16
  | w32
  | w64
deriving DecidableEq, Repr

/-- What a bus access gives the bus master (spec/20_memory.md R51 to R53). -/
inductive BusResponse where
  /-- The word an accepted read returns. -/
  | data (w : Word32)
  /-- An accepted write completes. -/
  | done
  /-- A refused access. -/
  | busError
deriving DecidableEq, Repr

/-- A physical frame at the CAN receive port (spec/42_fast_packet.md R179): its data length is the number of its
bytes, and "A data length above 8 cannot arrive at the port". -/
structure PortFrame where
  time : Word64
  id : Word32
  bytes : List Byte
  short : bytes.length ≤ 8
deriving DecidableEq, Repr

/-- One atomic step of an agent (spec/20_memory.md R65, spec/70_reset_and_hazards.md R230). Addresses are the host's;
the window stands at `CANPGN_BASE` (spec/20_memory.md R50). A write of another width than 32 bits is refused whatever
its data (R51), so only 32 bits of data are carried (notes/assumptions/7.md). -/
inductive Event where
  /-- The host reads. -/
  | read (width : Width) (addr : Nat)
  /-- The host writes. -/
  | write (width : Width) (addr : Nat) (value : Word32)
  /-- A frame arrives at the CAN receive port. -/
  | frame (f : PortFrame)
  /-- The platform's reset input. -/
  | reset
deriving DecidableEq, Repr

/-- The state: everything spec/10_state.md R21 names, the configuration (R47), and the model's own two fields
`pending` and `bus` (notes/assumptions/1.md, notes/assumptions/2.md). -/
structure State where
  /-- `N_ACC`, `N_FP`, `FP_PGNS`, `CANPGN_BASE`: changed by no step (spec/10_state.md R47). -/
  cfg : Config
  /-- `OPA` (spec/10_state.md R22). -/
  opa : Word64
  /-- `OPB` (spec/10_state.md R23). -/
  opb : Word64
  /-- `OPC` (spec/10_state.md R24). -/
  opc : Word64
  /-- `RES` (spec/10_state.md R25). -/
  res : Word64
  /-- `STATUS` (spec/10_state.md R27). -/
  status : Status
  /-- `MCOUNT` (spec/10_state.md R32). -/
  mcount : Word32
  /-- `FTIME` (spec/10_state.md R34). -/
  ftime : Word64
  /-- `FID` (spec/10_state.md R34). -/
  fid : Word32
  /-- `FDLC` (spec/10_state.md R34). -/
  fdlc : BitVec 4
  /-- `FDATA[0..7]` (spec/10_state.md R34). -/
  fdata : Memory
  /-- `MTIME` (spec/10_state.md R37). -/
  mtime : Word64
  /-- `MID` (spec/10_state.md R37). -/
  mid : Word32
  /-- `MPGN` (spec/10_state.md R37). -/
  mpgn : PgnValue
  /-- `MSA` (spec/10_state.md R37). -/
  msa : Byte
  /-- `MLEN` (spec/10_state.md R37). -/
  mlen : Byte
  /-- `MBUF[0..222]` (spec/10_state.md R37). -/
  mbuf : Memory
  /-- `ACC[0..N_ACC-1]`; none is a slot with `V` = 0 (spec/10_state.md R39). -/
  acc : List (Option Accessor)
  /-- `FPS[0..N_FP-1]`; none is a slot with `V` = 0 (spec/10_state.md R41). -/
  fps : List (Option FpSlot)
  /-- `OUT`, oldest first (spec/10_state.md R46). -/
  out : List Msg
  /-- The model's own: the agents' steps still to come, in their total order (spec/20_memory.md R65). -/
  pending : List Event
  /-- The model's own: the bus responses the host has received, oldest first (spec/60_exceptions.md R216). -/
  bus : List BusResponse
deriving DecidableEq, Repr

/-- The state of a block of configuration `c` when it starts (spec/10_state.md R45, spec/70_reset_and_hazards.md R230:
"The block is in this reset state when it starts"), with no agent step to come. -/
def State.resetOf (c : Config) : State :=
  { cfg := c
    opa := 0
    opb := 0
    opc := 0
    res := 0
    status := { fault := false, fcode := 0, fop := 0 }
    mcount := 0
    ftime := 0
    fid := 0
    fdlc := 0
    fdata := []
    mtime := 0
    mid := 0
    mpgn := 0
    msa := 0
    mlen := 0
    mbuf := []
    acc := List.replicate c.nAcc none
    fps := List.replicate c.nFp none
    out := []
    pending := []
    bus := [] }

/-- The machine right after reset, with the parameter values of the spec's vectors (notes/assumptions/3.md). -/
def State.reset : State := State.resetOf Config.vectors

end Sys2Proof.Machine
end

