-- ==== Sys2Proof/Machine/Flags.lean ====
section
/-!
DEFINITION. The status register's view and the fault codes. The block has no condition codes: "The only flag-like
state is `STATUS.FAULT`" (spec/10_state.md R44), so no command computes a flag.
-/

namespace Sys2Proof.Machine

/-- The code of a fault (spec/60_exceptions.md R201). -/
def faultCodeByte : FaultCode → Byte
  | .illegalOpcode => 0x01
  | .reservedBits => 0x02
  | .badSlot => 0x03
  | .badDescriptor => 0x04
  | .slotEmpty => 0x05
  | .range => 0x06
  | .badDlc => 0x07

/-- The fault an illegal command word raises (spec/30_encoding.md R86, R87). -/
def illegalFault : Illegal → FaultCode
  | .illegalOpcode => .illegalOpcode
  | .reservedBits => .reservedBits

/-- `STATUS` as one word: `FOP` 23:16, `FCODE` 15:8, `FAULT` bit 0, every other bit 0 (spec/10_state.md R27, R31). -/
def statusWord (t : Status) : Word32 :=
  0#8 ++ t.fop ++ t.fcode ++ 0#7 ++ BitVec.ofBool t.fault

end Sys2Proof.Machine
end

