-- ==== Sys2Proof/Machine/Ops.lean ====
section
/-!
DEFINITION. The named operations on byte stores and registers, entering the fault state (the block's only
exceptional state, spec/60_exceptions.md R200, R210), and leaving it by reset (R205).
-/

namespace Sys2Proof.Machine

/-! ### Byte stores -/

/-- Byte `a` of a store; an unlisted byte reads 0 (spec/10_state.md R45, notes/assumptions/12.md). -/
def Memory.read : Memory → Nat → Byte
  | [], _ => 0
  | (x, v) :: m, a => if x = a then v else Memory.read m a

/-- The store with byte `a` replaced by `b`, in canonical form. -/
def Memory.write : Memory → Nat → Byte → Memory
  | [], a, b => if b = 0 then [] else [(a, b)]
  | (x, v) :: m, a, b =>
    if a < x then (if b = 0 then (x, v) :: m else (a, b) :: (x, v) :: m)
    else if a = x then (if b = 0 then m else (a, b) :: m)
    else (x, v) :: Memory.write m a b

/-- The canonical form: strictly rising addresses and no byte 0 listed. -/
abbrev Memory.wf (m : Memory) : Prop :=
  m.Pairwise (fun c d => c.1 < d.1) ∧ ∀ c ∈ m, c.2 ≠ 0

/-- No byte at or beyond the store's capacity is listed. -/
abbrev Memory.within (cap : Nat) (m : Memory) : Prop :=
  ∀ c ∈ m, c.1 < cap

/-- `for i = 0..n-1: m[start + i] <- f i` over a store of `cap` bytes. A byte at or beyond `cap` does not exist and is
not written; the invariants of spec/10_state.md R42 keep a run from asking for one (notes/assumptions/12.md). -/
def Memory.copyIn (cap : Nat) (m : Memory) (start : Nat) : Nat → (Nat → Byte) → Memory
  | 0, _ => m
  | n + 1, f =>
    if start + n < cap then Memory.write (Memory.copyIn cap m start n f) (start + n) (f n)
    else Memory.copyIn cap m start n f

/-- `for i = 0..cap-1: m[i] <- f i`: a store of `cap` bytes, every one given. -/
def Memory.tabulate (cap : Nat) (f : Nat → Byte) : Memory :=
  Memory.copyIn cap [] 0 cap f

/-! ### Halting and faults -/

/-- `STATUS.FAULT` = 1: the block is halted (spec/10_state.md R28). -/
def State.halted (s : State) : Bool := s.status.fault

/-- `raise Fault(code)` of a command whose word has `op` in bits 31:24 (spec/60_exceptions.md R200): `STATUS` is
written and nothing else happens (R207). -/
def State.takeFault (s : State) (code : FaultCode) (op : Byte) : State :=
  { s with status := { fault := true, fcode := faultCodeByte code, fop := op } }

/-- Reset, the only way out of the fault state (spec/60_exceptions.md R205, spec/70_reset_and_hazards.md R230): every
element of state takes its reset value (spec/10_state.md R45) but `OUT` and the configuration (R46, R47). The steps
still to come and the responses already given are not the block's, and stay. -/
def State.applyReset (s : State) : State :=
  { State.resetOf s.cfg with out := s.out, pending := s.pending, bus := s.bus }

/-- A command's effect `k` where the block runs; while it is halted the command is ignored
(spec/60_exceptions.md R204). -/
def whenRunning (s : State) (k : State → State) : Host.Outcome State Fault Refusal :=
  .next (if s.halted then s else k s)

/-! ### Registers -/

/-- `RES <- v` (spec/10_state.md R25). -/
def State.writeRes (s : State) (v : Word64) : State := { s with res := v }

/-- The low half of a 64-bit register, `X[31:0]` (spec/20_memory.md R54). -/
def low32 (x : Word64) : Word32 := x.extractLsb' 0 32

/-- The high half of a 64-bit register, `X[63:32]` (spec/20_memory.md R54). -/
def high32 (x : Word64) : Word32 := x.extractLsb' 32 32

/-- A write to `X_LO`: replaces `X[31:0]` and leaves `X[63:32]` (spec/20_memory.md R54). -/
def withLow32 (x : Word64) (v : Word32) : Word64 := high32 x ++ v

/-- A write to `X_HI`: replaces `X[63:32]` and leaves `X[31:0]` (spec/20_memory.md R54). -/
def withHigh32 (x : Word64) (v : Word32) : Word64 := v ++ low32 x

/-- Accessor slot `k`; an index beyond the file is a slot with `V` = 0. -/
def State.accAt (s : State) (k : Nat) : Option Accessor := s.acc.getD k none

/-- `ACC[k] <- a` (spec/41_bit_accessor.md R141). -/
def State.setAcc (s : State) (k : Nat) (a : Accessor) : State := { s with acc := s.acc.set k (some a) }

/-- Reassembly slot `i`; an index beyond the table is a slot with `V` = 0. -/
def State.fpAt (s : State) (i : Nat) : Option FpSlot := s.fps.getD i none

/-- `FPS[i] <- f`. -/
def State.setFp (s : State) (i : Nat) (f : FpSlot) : State := { s with fps := s.fps.set i (some f) }

/-- `Free(i)`: every field of `FPS[i]` becomes 0 (spec/42_fast_packet.md §2). -/
def State.freeFp (s : State) (i : Nat) : State := { s with fps := s.fps.set i none }

/-- A bus response reaches the host (notes/assumptions/2.md). -/
def State.respond (s : State) (r : BusResponse) : State := { s with bus := s.bus ++ [r] }

end Sys2Proof.Machine
end

