-- ==== Sys2Proof/Machine/Operands.lean ====
section
/-!
DEFINITION. Operand forms: the identifier and descriptor operands (spec/30_encoding.md R84, R85), the packed payload
word and the three data sources (spec/20_memory.md R58, R59), and the extraction of a bit field
(spec/41_bit_accessor.md R132 to R137).
-/

namespace Sys2Proof.Machine

/-! ### Packed words and data sources -/

/-- `unpack(w)[i] = w[63-8i : 56-8i]` for i = 0..7 (spec/20_memory.md R59). -/
def unpack (w : Word64) (i : Nat) : Byte := if i < 8 then w.extractLsb' (56 - 8 * i) 8 else 0

/-- `pack(b)`: byte 0 is the most significant byte (spec/20_memory.md R59). -/
def pack (b : Nat → Byte) : Word64 := b 0 ++ b 1 ++ b 2 ++ b 3 ++ b 4 ++ b 5 ++ b 6 ++ b 7

/-- `FWORD`, a view of `FDATA` (spec/10_state.md R35). -/
def State.fword (s : State) : Word64 := pack (Memory.read s.fdata)

/-- `BufByte(src, i)` (spec/20_memory.md R58). -/
def State.bufByte (s : State) (src : Source) (i : Nat) : Byte :=
  match src with
  | .frame => Memory.read s.fdata i
  | .msg => Memory.read s.mbuf i
  | .opb => unpack s.opb i

/-- `CAP(src)` in bytes, used when an accessor is compiled (spec/20_memory.md R58). -/
def sourceCap : Source → Nat
  | .frame => 8
  | .msg => Config.maxFpLen
  | .opb => 8

/-- `VLEN(src)` in bytes, checked when an accessor is called (spec/20_memory.md R58). -/
def State.sourceLen (s : State) (src : Source) : Nat :=
  match src with
  | .frame => 8
  | .msg => s.mlen.toNat
  | .opb => 8

/-! ### The descriptor word (spec/30_encoding.md R85) -/

/-- The source a 2-bit `SRC` field names; 3 is reserved (spec/20_memory.md R58). -/
def sourceOfCode (c : BitVec 2) : Option Source :=
  match c.toNat with
  | 0 => some .frame
  | 1 => some .msg
  | 2 => some .opb
  | _ => none

/-- The `SRC` field of a source (spec/20_memory.md R58). -/
def sourceCode : Source → BitVec 2
  | .frame => 0
  | .msg => 1
  | .opb => 2

/-- The accessor's native width: 64 where `W64` = 1, else 32 (spec/41_bit_accessor.md R136). -/
def accessorWidth (w64 : Bool) : Nat := if w64 then 64 else 32

/-- The fields of a descriptor word whose `SRC` field names `src` (spec/30_encoding.md R85). -/
def descriptorFields (d : Word32) (src : Source) : Accessor :=
  { start := d.extractLsb' 0 16
    len := d.extractLsb' 16 7
    be := d.getLsbD 24
    sg := d.getLsbD 25
    w64 := d.getLsbD 26
    src := src }

/-- The limits on a descriptor's fields: `LEN` within the width and the field inside the source's capacity
(spec/41_bit_accessor.md R131). -/
def Accessor.inLimits (a : Accessor) : Bool :=
  decide (1 ≤ a.len.toNat) && decide (a.len.toNat ≤ accessorWidth a.w64) &&
    decide (a.start.toNat + a.len.toNat ≤ 8 * sourceCap a.src)

/-- The accessor of a legal descriptor word, none where `LegalDescriptor(d)` fails (spec/41_bit_accessor.md R131):
reserved bits 23, 27, 31:30 zero, a source named, the fields within their limits. -/
def compileDescriptor (d : Word32) : Option Accessor :=
  if d.getLsbD 23 || d.getLsbD 27 || d.getLsbD 30 || d.getLsbD 31 then none
  else
    match sourceOfCode (d.extractLsb' 28 2) with
    | none => none
    | some src => if (descriptorFields d src).inLimits then some (descriptorFields d src) else none

/-- `LegalDescriptor(d)` (spec/41_bit_accessor.md R131). -/
def legalDescriptor (d : Word32) : Bool := (compileDescriptor d).isSome

/-- A slot as the host reads it: the descriptor layout with bit 31 = `V`, a slot with `V` = 0 as 0
(spec/10_state.md R40). -/
def accessorWord : Option Accessor → Word32
  | none => 0
  | some a =>
    1#1 ++ 0#1 ++ sourceCode a.src ++ 0#1 ++ BitVec.ofBool a.w64 ++ BitVec.ofBool a.sg ++ BitVec.ofBool a.be ++
      0#1 ++ a.len ++ a.start

/-! ### Extraction (spec/41_bit_accessor.md R133, R137) -/

/-- `lo(b) = max(s, 8b)`, the lowest buffer bit of the field in byte `b` (R133). -/
def chunkLo (start b : Nat) : Nat := max start (8 * b)

/-- `hi(b) = min(s + n - 1, 8b + 7)`, the highest (R133). -/
def chunkHi (start len b : Nat) : Nat := min (start + len - 1) (8 * b + 7)

/-- `width(b) = hi(b) - lo(b) + 1` (R133). -/
def chunkWidth (start len b : Nat) : Nat := chunkHi start len b - chunkLo start b + 1

/-- `chunk(b) = BufByte(src, b)[hi(b) - 8b : lo(b) - 8b]` (R133). -/
def chunk (bytes : Nat → Byte) (start len b : Nat) : Nat :=
  ((bytes b).toNat >>> (chunkLo start b - 8 * b)) % 2 ^ chunkWidth start len b

/-- `u = (u << width(b)) | chunk(b)` (R137). -/
def pushChunk (bytes : Nat → Byte) (start len : Nat) (u b : Nat) : Nat :=
  (u <<< chunkWidth start len b) ||| chunk bytes start len b

/-- The bytes a field touches, `first` to `last` (R133). -/
def touchedBytes (start len : Nat) : List Nat :=
  List.range' (start / 8) ((start + len - 1) / 8 + 1 - start / 8)

/-- The unsigned number of a field: little-endian takes the bytes from `last` down to `first`, big-endian from
`first` to `last` (R134, R135, R137). -/
def assembleField (bytes : Nat → Byte) (start len : Nat) (be : Bool) : Nat :=
  (if be then touchedBytes start len else (touchedBytes start len).reverse).foldl (pushChunk bytes start len) 0

/-- `sext_W(u, n)`: where bit n-1 is 1, the bits from n up to the width become 1
(spec/00_scope.md R14, spec/41_bit_accessor.md R136). -/
def signExtend (u len width : Nat) : Nat := if u.testBit (len - 1) then u ||| (2 ^ width - 2 ^ len) else u

/-- `Extract(src, s, n, be, sg, W)` over the bytes of a source (R137). -/
def extractField (bytes : Nat → Byte) (start len : Nat) (be sg : Bool) (width : Nat) : Nat :=
  if sg then signExtend (assembleField bytes start len be) len width else assembleField bytes start len be

end Sys2Proof.Machine
end

