-- ==== Sys2Proof/Machine/Codec.lean ====
section
/-!
DEFINITION. The PGN codec commands (spec/40_pgn_codec.md). Each reads `OPA[31:0]` (SAMEPGN also `OPB[31:0]`), writes
only `RES`, and is ignored while the block is halted (R105).
-/

namespace Sys2Proof.Machine

/-- `sourceAddress(id) = id[7:0]` (R102). -/
def sourceAddress (id : Word32) : Byte := id.extractLsb' 0 8

/-- `pduSpecific(id) = id[15:8]` (R102). -/
def pduSpecific (id : Word32) : Byte := id.extractLsb' 8 8

/-- `pduFormat(id) = id[23:16]` (R102). -/
def pduFormat (id : Word32) : Byte := id.extractLsb' 16 8

/-- `dataPage(id) = id[24]` (R102). -/
def dataPage (id : Word32) : BitVec 1 := id.extractLsb' 24 1

/-- `extendedDataPage(id) = id[25]` (R102). -/
def extendedDataPage (id : Word32) : BitVec 1 := id.extractLsb' 25 1

/-- `priority(id) = id[27:26]` (R102; bit 28 is read by no command, R101, spec/90_conflicts.md C2). -/
def priority (id : Word32) : BitVec 2 := id.extractLsb' 26 2

/-- `pgn(id)`: the PDU1 branch drops the destination, the PDU2 branch keeps the PDU specific byte (R103). -/
def pgnOf (id : Word32) : PgnValue :=
  if pduFormat id < Config.pdu2Min then dataPage id ++ pduFormat id ++ 0#8
  else dataPage id ++ pduFormat id ++ pduSpecific id

/-- `canId(p)`: priority 0, extended data page 0, data page `p[16]`, PDU format `p[15:8]`, PDU specific `p[7:0]`,
source address 0xFE, bits 31:28 = 0 (R104). -/
def canIdOf (p : Word32) : Word32 :=
  0#4 ++ 0#2 ++ 0#1 ++ p.extractLsb' 16 1 ++ p.extractLsb' 8 8 ++ p.extractLsb' 0 8 ++ Config.defaultSa

/-- `samePGN(a,b) = pgn(a)==pgn(b)`, 1 or 0 (R114). -/
def samePgn (a b : Word32) : Word64 := if pgnOf a = pgnOf b then 1 else 0

/-- `SA` (R106). -/
def execSa (s : State) : Host.Outcome State Fault Refusal :=
  whenRunning s fun s => s.writeRes ((sourceAddress (low32 s.opa)).setWidth 64)

/-- `PS` (R107). -/
def execPs (s : State) : Host.Outcome State Fault Refusal :=
  whenRunning s fun s => s.writeRes ((pduSpecific (low32 s.opa)).setWidth 64)

/-- `PF` (R108). -/
def execPf (s : State) : Host.Outcome State Fault Refusal :=
  whenRunning s fun s => s.writeRes ((pduFormat (low32 s.opa)).setWidth 64)

/-- `DP` (R109). -/
def execDp (s : State) : Host.Outcome State Fault Refusal :=
  whenRunning s fun s => s.writeRes ((dataPage (low32 s.opa)).setWidth 64)

/-- `EDP` (R110). -/
def execEdp (s : State) : Host.Outcome State Fault Refusal :=
  whenRunning s fun s => s.writeRes ((extendedDataPage (low32 s.opa)).setWidth 64)

/-- `PRIO` (R111). -/
def execPrio (s : State) : Host.Outcome State Fault Refusal :=
  whenRunning s fun s => s.writeRes ((priority (low32 s.opa)).setWidth 64)

/-- `PGN` (R112). -/
def execPgn (s : State) : Host.Outcome State Fault Refusal :=
  whenRunning s fun s => s.writeRes ((pgnOf (low32 s.opa)).setWidth 64)

/-- `CANID` (R113). -/
def execCanid (s : State) : Host.Outcome State Fault Refusal :=
  whenRunning s fun s => s.writeRes ((canIdOf (low32 s.opa)).setWidth 64)

/-- `SAMEPGN` (R114). -/
def execSamepgn (s : State) : Host.Outcome State Fault Refusal :=
  whenRunning s fun s => s.writeRes (samePgn (low32 s.opa) (low32 s.opb))

end Sys2Proof.Machine
end

