-- ==== Sys2Proof/Machine/FastPacket.lean ====
section
/-!
DEFINITION. Frame input and fast-packet reassembly (spec/42_fast_packet.md).
-/

namespace Sys2Proof.Machine

/-! ### The slot table -/

/-- The slot is in use and holds the key (`p`, `a`) (R162). -/
def FpSlot.hasKey (p : PgnValue) (a : Byte) : Option FpSlot → Bool
  | none => false
  | some f => f.pgn == p && f.sa == a

/-- `FindSlot(p, a)` (§2). -/
def findSlot (fps : List (Option FpSlot)) (p : PgnValue) (a : Byte) : Option Nat :=
  fps.findIdx? (FpSlot.hasKey p a)

/-- The lowest index with `V` = 0 (R165). -/
def firstFree (fps : List (Option FpSlot)) : Option Nat := fps.findIdx? Option.isNone

/-- `Free(s)`; `Free(NONE)` does nothing (§2). -/
def freeIfAny (s : State) : Option Nat → State
  | none => s
  | some i => s.freeFp i

/-! ### Completion -/

/-- The first `n` bytes of a store, in order. -/
def firstBytes (m : Memory) (n : Nat) : List Byte := (List.range n).map (Memory.read m)

/-- `MBUF` after the completion of `f`: `MBUF[i] <- (i < TOTAL) ? BUF[i] : 0` for i = 0..222 (R172). -/
def completedBuf (f : FpSlot) : Memory :=
  Memory.tabulate Config.maxFpLen fun j => if j < f.total.toNat then Memory.read f.buf j else 0

/-- The event of a completion (R172, R176). -/
def State.completionMsg (s : State) (f : FpSlot) : Msg :=
  { time := s.ftime
    id := s.fid
    pgn := f.pgn
    sa := f.sa
    len := f.total
    bytes := firstBytes f.buf f.total.toNat }

/-- `Complete(i)` where `FPS[i]` is `f` (R172): the message register, the counter, one event, and the slot freed. -/
def complete (s : State) (i : Nat) (f : FpSlot) : State :=
  { s with
    mtime := s.ftime
    mid := s.fid
    mpgn := f.pgn
    msa := f.sa
    mlen := f.total
    mbuf := completedBuf f
    mcount := s.mcount + 1
    out := s.out ++ [s.completionMsg f]
    fps := s.fps.set i none }

/-- `FPS[i] <- f` and then `FpCheck(i)` (R171). -/
def storeAndCheck (s : State) (i : Nat) (f : FpSlot) : State :=
  if f.count = f.total then complete s i f else s.setFp i f

/-! ### The reassembly step -/

/-- The slot a first-of-sequence fragment opens: `n = min(FDLC - 2, TOTAL)` bytes from `FDATA[2]` (R165, R170). -/
def openedSlot (s : State) (p : PgnValue) (a : Byte) (seq : BitVec 3) : FpSlot :=
  { pgn := p
    sa := a
    total := Memory.read s.fdata 1
    count := BitVec.ofNat 8 (min (s.fdlc.toNat - 2) (Memory.read s.fdata 1).toNat)
    seq := seq
    next := 1
    buf := Memory.copyIn Config.maxFpLen [] 0 (min (s.fdlc.toNat - 2) (Memory.read s.fdata 1).toNat)
      (fun j => Memory.read s.fdata (2 + j)) }

/-- `FpFirst` (R165): the key's own slot, else the lowest free one; with none the fragment is dropped (R166). -/
def fpFirst (s : State) (slot : Option Nat) (p : PgnValue) (a : Byte) (seq : BitVec 3) : State :=
  match slot with
  | some i => storeAndCheck s i (openedSlot s p a seq)
  | none =>
    match firstFree s.fps with
    | none => s
    | some i => storeAndCheck s i (openedSlot s p a seq)

/-- The bytes a later fragment adds, `n = min(FDLC - 1, TOTAL - COUNT)` (R167, R170). -/
def appendLen (s : State) (f : FpSlot) : Nat := min (s.fdlc.toNat - 1) (f.total.toNat - f.count.toNat)

/-- The slot after a matching later fragment: `n` bytes from `FDATA[1]` (R167). -/
def appendedSlot (s : State) (f : FpSlot) : FpSlot :=
  { f with
    buf := Memory.copyIn Config.maxFpLen f.buf f.count.toNat (appendLen s f) (fun j => Memory.read s.fdata (1 + j))
    count := BitVec.ofNat 8 (f.count.toNat + appendLen s f)
    next := f.next + 1 }

/-- The counter is the expected next value: the first fragment's sequence identifier and the index `NEXT` (R169). -/
def FpSlot.expects (f : FpSlot) (seq : BitVec 3) (idx : BitVec 5) : Bool :=
  decide (seq = f.seq) && decide (idx.toNat = f.next.toNat)

/-- `FpNext` (R167): no state, the fragment is dropped (R168); a mismatch discards the state (R169). -/
def fpNext (s : State) (slot : Option Nat) (seq : BitVec 3) (idx : BitVec 5) : State :=
  match slot with
  | none => s
  | some i =>
    match s.fpAt i with
    | none => s
    | some f => if f.expects seq idx then storeAndCheck s i (appendedSlot s f) else s.freeFp i

/-- The sequence identifier, `FDATA[0]` bits 7:5 (R161). -/
def State.fragSeq (s : State) : BitVec 3 := (Memory.read s.fdata 0).extractLsb' 5 3

/-- The frame index, `FDATA[0]` bits 4:0 (R161). -/
def State.fragIdx (s : State) : BitVec 5 := (Memory.read s.fdata 0).extractLsb' 0 5

/-- `FpStep(p, a)`, taken after the frame register holds the fragment (R163, R164). -/
def fpStep (s : State) (p : PgnValue) (a : Byte) : State :=
  if s.fdlc.toNat = 0 then freeIfAny s (findSlot s.fps p a)
  else if s.fragIdx = 0 then
    if s.fdlc.toNat < 2 then freeIfAny s (findSlot s.fps p a)
    else fpFirst s (findSlot s.fps p a) p a s.fragSeq
  else fpNext s (findSlot s.fps p a) s.fragSeq s.fragIdx

/-! ### Frame arrival -/

/-- `FDATA` after a frame: `FDATA[i] <- (i < dlc) ? unpack(w)[i] : 0` for i = 0..7 (R160). -/
def latchedData (dlc : Nat) (w : Word64) : Memory :=
  Memory.tabulate 8 fun i => if i < dlc then unpack w i else 0

/-- The frame register takes a frame; bytes at or beyond the data length become 0 (R160). -/
def latchFrame (s : State) (t : Word64) (id : Word32) (dlc : Nat) (w : Word64) : State :=
  { s with
    ftime := t
    fid := id
    fdlc := BitVec.ofNat 4 dlc
    fdata := latchedData dlc w }

/-- `FrameArrive(t, id, dlc, w)` (R160): the frame register always takes the frame, and a frame of a PGN in `FP_PGNS`
makes one reassembly step. -/
def frameArrive (s : State) (t : Word64) (id : Word32) (dlc : Nat) (w : Word64) : State :=
  if pgnOf id ∈ s.cfg.fpPgns then fpStep (latchFrame s t id dlc w) (pgnOf id) (sourceAddress id)
  else latchFrame s t id dlc w

/-- The packed payload word of a port frame: `w[63-8i:56-8i] = b[i]` for `i < dlc` and 0 otherwise (R179). -/
def PortFrame.word (f : PortFrame) : Word64 := pack (fun i => f.bytes.getD i 0)

/-- A frame at the CAN receive port (R179); while the block is halted it is taken and discarded (R180). -/
def portArrive (s : State) (f : PortFrame) : State :=
  if s.halted then s else frameArrive s f.time f.id f.bytes.length f.word

/-- A frame from the host, or `BAD_DLC` for a data length above 8 (R178). -/
def hostFrame (s : State) (dlc : Nat) (op : Byte) : State :=
  if 8 < dlc then s.takeFault .badDlc op else frameArrive s s.opc (low32 s.opa) dlc s.opb

/-- `FRAME_IN n` (R178). -/
def execFrameIn (dlc : Nat) (s : State) : Host.Outcome State Fault Refusal :=
  whenRunning s fun s => hostFrame s dlc (opcodeOf (.frameIn dlc))

end Sys2Proof.Machine
end

