-- ==== Sys2Proof/Machine/Bus.lean ====
section
/-!
DEFINITION. The MMIO register window: the address map, reads and writes (spec/20_memory.md R50 to R62). A write to
`CMD` executes a command and is in Sys2Proof/Machine/Command.lean.
-/

namespace Sys2Proof.Machine

/-- The registers of the address map (spec/20_memory.md R50); `mbuf j` is word j of the `MBUF` window and `acc k` the
view of accessor slot k. -/
inductive MmioReg where
  | cmd
  | status
  | opaLo
  | opaHi
  | opbLo
  | opbHi
  | opcLo
  | opcHi
  | resLo
  | resHi
  | mcount
  | info
  | ftimeLo
  | ftimeHi
  | fid
  | fdlc
  | fwordLo
  | fwordHi
  | mtimeLo
  | mtimeHi
  | mid
  | mpgn
  | msa
  | mlen
  | mbuf (j : Nat)
  | acc (k : Nat)
deriving DecidableEq, Repr

/-- The rows of the address map that are one register (R50). -/
def namedOffsets : List (Nat × MmioReg) :=
  [(0x000, .cmd), (0x004, .status), (0x008, .opaLo), (0x00C, .opaHi), (0x010, .opbLo), (0x014, .opbHi),
    (0x018, .opcLo), (0x01C, .opcHi), (0x020, .resLo), (0x024, .resHi), (0x028, .mcount), (0x02C, .info)] ++
  [(0x040, .ftimeLo), (0x044, .ftimeHi), (0x048, .fid), (0x04C, .fdlc), (0x050, .fwordLo), (0x054, .fwordHi)] ++
  [(0x060, .mtimeLo), (0x064, .mtimeHi), (0x068, .mid), (0x06C, .mpgn), (0x070, .msa), (0x074, .mlen)]

/-- The register at an offset that is a multiple of 4: a named one, word j of `0x100 + 4j`, j = 0..55 (R61), or slot k
of `0x200 + 4k`, k below `N_ACC` (R62). None is a reserved offset or one at or beyond 0x400 (R50, R52). -/
def regAtOffset (c : Config) (off : Nat) : Option MmioReg :=
  if 0x100 ≤ off ∧ off ≤ 0x1DC then some (.mbuf ((off - 0x100) / 4))
  else if 0x200 ≤ off ∧ off < 0x200 + 4 * c.nAcc ∧ off < 0x300 then some (.acc ((off - 0x200) / 4))
  else namedOffsets.lookup off

/-- The register an access reaches: only a 32-bit access at an offset of the window that is a multiple of 4 is
accepted (R51, R52). An address below `CANPGN_BASE` is outside the window (notes/assumptions/6.md). -/
def regAtAccess (c : Config) (width : Width) (addr : Nat) : Option MmioReg :=
  if width = .w32 ∧ c.base ≤ addr ∧ (addr - c.base) % 4 = 0 then regAtOffset c (addr - c.base) else none

/-- `INFO` (spec/10_state.md R33). -/
def infoWord (c : Config) : Word32 :=
  Config.layoutRevision ++ BitVec.ofNat 8 Config.maxFpLen ++ BitVec.ofNat 8 c.nFp ++ BitVec.ofNat 8 c.nAcc

/-- Word j of the `MBUF` window: `MBUF[4j] : MBUF[4j+1] : MBUF[4j+2] : MBUF[4j+3]`, with `MBUF[223]`, which does not
exist, read as 0 (R61). -/
def mbufWord (s : State) (j : Nat) : Word32 :=
  Memory.read s.mbuf (4 * j) ++ Memory.read s.mbuf (4 * j + 1) ++ Memory.read s.mbuf (4 * j + 2) ++
    (if 4 * j + 3 < Config.maxFpLen then Memory.read s.mbuf (4 * j + 3) else 0)

/-- The word a read of a register returns (R50, R53). -/
def readReg (s : State) : MmioReg → Word32
  | .cmd => 0
  | .status => statusWord s.status
  | .opaLo => low32 s.opa
  | .opaHi => high32 s.opa
  | .opbLo => low32 s.opb
  | .opbHi => high32 s.opb
  | .opcLo => low32 s.opc
  | .opcHi => high32 s.opc
  | .resLo => low32 s.res
  | .resHi => high32 s.res
  | .mcount => s.mcount
  | .info => infoWord s.cfg
  | .ftimeLo => low32 s.ftime
  | .ftimeHi => high32 s.ftime
  | .fid => s.fid
  | .fdlc => s.fdlc.setWidth 32
  | .fwordLo => low32 s.fword
  | .fwordHi => high32 s.fword
  | .mtimeLo => low32 s.mtime
  | .mtimeHi => high32 s.mtime
  | .mid => s.mid
  | .mpgn => s.mpgn.setWidth 32
  | .msa => s.msa.setWidth 32
  | .mlen => s.mlen.setWidth 32
  | .mbuf j => mbufWord s j
  | .acc k => accessorWord (s.accAt k)

/-- A write to a register other than `CMD`: an operand half is replaced (R54), and a read-only register ignores it
(R53). Operand writes work while the block is halted too (spec/60_exceptions.md R204). -/
def writeReg (s : State) (r : MmioReg) (v : Word32) : State :=
  match r with
  | .opaLo => { s with opa := withLow32 s.opa v }
  | .opaHi => { s with opa := withHigh32 s.opa v }
  | .opbLo => { s with opb := withLow32 s.opb v }
  | .opbHi => { s with opb := withHigh32 s.opb v }
  | .opcLo => { s with opc := withLow32 s.opc v }
  | .opcHi => { s with opc := withHigh32 s.opc v }
  | .cmd => s
  | .status => s
  | .resLo => s
  | .resHi => s
  | .mcount => s
  | .info => s
  | .ftimeLo => s
  | .ftimeHi => s
  | .fid => s
  | .fdlc => s
  | .fwordLo => s
  | .fwordHi => s
  | .mtimeLo => s
  | .mtimeHi => s
  | .mid => s
  | .mpgn => s
  | .msa => s
  | .mlen => s
  | .mbuf _ => s
  | .acc _ => s

/-- A host read: the word, or a bus error; no read changes the block (R51, R52, R56). -/
def hostRead (s : State) (width : Width) (addr : Nat) : State :=
  match regAtAccess s.cfg width addr with
  | none => s.respond .busError
  | some r => s.respond (.data (readReg s r))

end Sys2Proof.Machine
end

