-- ==== Sys2Proof/Machine/Accessor.lean ====
section
/-!
DEFINITION. The bit accessor commands (spec/41_bit_accessor.md R140 to R143).
-/

namespace Sys2Proof.Machine

/-- `ACC[k] <- descriptor d`, or the fault of the first check that fails (R141). -/
def compileSlot (s : State) (k : Nat) (d : Word32) (op : Byte) : State :=
  if s.cfg.nAcc ≤ k then s.takeFault .badSlot op
  else
    match compileDescriptor d with
    | none => s.takeFault .badDescriptor op
    | some a => s.setAcc k a

/-- The value of an accessor over the present contents of its source (R142, R143), zero-extended to 64 bits. -/
def State.accessorValue (s : State) (a : Accessor) : Word64 :=
  BitVec.ofNat 64
    (extractField (s.bufByte a.src) a.start.toNat a.len.toNat a.be a.sg (accessorWidth a.w64))

/-- `RES <-` the value of slot `k`, or the fault of the first check that fails (R142). -/
def callSlot (s : State) (k : Nat) (op : Byte) : State :=
  if s.cfg.nAcc ≤ k then s.takeFault .badSlot op
  else
    match s.accAt k with
    | none => s.takeFault .slotEmpty op
    | some a =>
      if 8 * s.sourceLen a.src < a.start.toNat + a.len.toNat then s.takeFault .range op
      else s.writeRes (s.accessorValue a)

/-- `ACOMPILE k` (R141). -/
def execAcompile (slot : Nat) (s : State) : Host.Outcome State Fault Refusal :=
  whenRunning s fun s => compileSlot s slot (low32 s.opa) (opcodeOf (.acompile slot))

/-- `ACALL k` (R142). -/
def execAcall (slot : Nat) (s : State) : Host.Outcome State Fault Refusal :=
  whenRunning s fun s => callSlot s slot (opcodeOf (.acall slot))

end Sys2Proof.Machine
end

