-- ==== Sys2Proof/Machine/Dispatch.lean ====
section
/-! DEFINITION. One arm per command: the meaning of each. -/

namespace Sys2Proof.Machine

/-- The meaning of a command. -/
def exec (i : Instr) (s : State) : Host.Outcome State Fault Refusal :=
  match i with
  | .sa => Sys2Proof.Machine.execSa s
  | .ps => Sys2Proof.Machine.execPs s
  | .pf => Sys2Proof.Machine.execPf s
  | .dp => Sys2Proof.Machine.execDp s
  | .edp => Sys2Proof.Machine.execEdp s
  | .prio => Sys2Proof.Machine.execPrio s
  | .pgn => Sys2Proof.Machine.execPgn s
  | .canid => Sys2Proof.Machine.execCanid s
  | .samepgn => Sys2Proof.Machine.execSamepgn s
  | .acompile slot => Sys2Proof.Machine.execAcompile slot s
  | .acall slot => Sys2Proof.Machine.execAcall slot s
  | .frameIn dlc => Sys2Proof.Machine.execFrameIn dlc s

end Sys2Proof.Machine
end

