-- ==== Sys2Proof/Machine/Command.lean ====
section
/-!
DEFINITION. Executing a command word (spec/10_state.md R26, spec/30_encoding.md R86, R87) and the steps of the
agents (spec/20_memory.md R65).
-/

namespace Sys2Proof.Machine

/-- A write of `w` to `CMD`: the command it decodes to, or the fault of an illegal word; while the block is halted
neither happens (spec/60_exceptions.md R204). -/
def execWord (w : Word32) (s : State) : Host.Outcome State Fault Refusal :=
  match decode w with
  | .instr i => exec i s
  | .illegal r => whenRunning s fun s => s.takeFault (illegalFault r) (opcodeField w)

/-- A host write: refused with a bus error (spec/20_memory.md R51, R52), a command (R56), or a register write. -/
def hostWrite (s : State) (width : Width) (addr : Nat) (v : Word32) : Host.Outcome State Fault Refusal :=
  match regAtAccess s.cfg width addr with
  | none => .next (s.respond .busError)
  | some .cmd => execWord v (s.respond .done)
  | some r => .next (writeReg (s.respond .done) r v)

/-- One atomic step of an agent. -/
def takeEvent (e : Event) (s : State) : Host.Outcome State Fault Refusal :=
  match e with
  | .read width addr => .next (hostRead s width addr)
  | .write width addr v => hostWrite s width addr v
  | .frame f => .next (portArrive s f)
  | .reset => .next s.applyReset

/-- The next agent step in the total order; with none to come the block is idle (spec/60_exceptions.md R215,
notes/assumptions/5.md). -/
def nextStep (s : State) : Host.Outcome State Fault Refusal :=
  match s.pending with
  | [] => .next s
  | e :: rest => takeEvent e { s with pending := rest }

/-- The host's write of a command word to `CMD` (spec/30_encoding.md R80) becomes the next agent step. -/
def placeCommand (s : State) (w : Word32) : State :=
  { s with pending := .write .w32 s.cfg.base w :: s.pending }

end Sys2Proof.Machine
end

