-- ==== Sys2Proof/Machine/Step.lean ====
section
/-!
DEFINITION. One step of the machine. The block has no program counter and fetches nothing (spec/10_state.md R20): a
step is the next agent step in the total order of spec/20_memory.md R65.
-/

namespace Sys2Proof.Machine

/-- One step: the head of `pending`. -/
def step (s : State) : Host.Outcome State Fault Refusal := nextStep s

/-- `s` with a write of the command word to `CMD` as its very next agent step (notes/assumptions/4.md): a command is
one 32-bit word, the bits above `nbits` are 0. -/
def State.withFetchWord (s : State) (nbits w : Nat) : State :=
  placeCommand s (BitVec.ofNat 32 (w % 2 ^ nbits))

end Sys2Proof.Machine
end

