-- ==== Sys2Proof/Machine/Assembly.lean ====
section
/-!
DEFINITION. The spec's host assembly (spec/30_encoding.md R90, R91): each statement stands for bus accesses, and a
pseudo-instruction for a list of statements. The host's program is a straight line (spec/60_exceptions.md R213).
-/

namespace Sys2Proof.Machine

/-- A base statement (R90). -/
inductive HostStmt where
  /-- `SW <reg>, <imm32>`. -/
  | sw (reg : MmioReg) (imm : Word32)
  /-- `LW <reg>`. -/
  | lw (reg : MmioReg)
  /-- A command mnemonic: `SW CMD, <word>`. -/
  | command (i : Instr)
deriving DecidableEq, Repr

/-- The operand registers `LI` loads (R91). -/
inductive OperandReg where
  | opa
  | opb
  | opc
deriving DecidableEq, Repr

/-- The 64-bit registers `LD64` reads (R91). -/
inductive WideReg where
  | opa
  | opb
  | opc
  | res
  | ftime
  | fword
  | mtime
deriving DecidableEq, Repr

/-- `offset(<reg>)`, the offset of a register in the window (R90, spec/20_memory.md R50, R61, R62). -/
def regOffset : MmioReg → Nat
  | .cmd => 0x000
  | .status => 0x004
  | .opaLo => 0x008
  | .opaHi => 0x00C
  | .opbLo => 0x010
  | .opbHi => 0x014
  | .opcLo => 0x018
  | .opcHi => 0x01C
  | .resLo => 0x020
  | .resHi => 0x024
  | .mcount => 0x028
  | .info => 0x02C
  | .ftimeLo => 0x040
  | .ftimeHi => 0x044
  | .fid => 0x048
  | .fdlc => 0x04C
  | .fwordLo => 0x050
  | .fwordHi => 0x054
  | .mtimeLo => 0x060
  | .mtimeHi => 0x064
  | .mid => 0x068
  | .mpgn => 0x06C
  | .msa => 0x070
  | .mlen => 0x074
  | .mbuf j => 0x100 + 4 * j
  | .acc k => 0x200 + 4 * k

/-- The bus access a statement makes (R90). -/
def stmtEvent (c : Config) : HostStmt → Event
  | .sw reg imm => .write .w32 (c.base + regOffset reg) imm
  | .lw reg => .read .w32 (c.base + regOffset reg)
  | .command i => .write .w32 (c.base + regOffset .cmd) (encode i)

/-- The bus accesses of a straight-line host program, in order. -/
def programEvents (c : Config) (p : List HostStmt) : List Event := p.map (stmtEvent c)

/-- The low half of an operand register. -/
def operandLo : OperandReg → MmioReg
  | .opa => .opaLo
  | .opb => .opbLo
  | .opc => .opcLo

/-- The high half of an operand register. -/
def operandHi : OperandReg → MmioReg
  | .opa => .opaHi
  | .opb => .opbHi
  | .opc => .opcHi

/-- The low half of a 64-bit register. -/
def wideLo : WideReg → MmioReg
  | .opa => .opaLo
  | .opb => .opbLo
  | .opc => .opcLo
  | .res => .resLo
  | .ftime => .ftimeLo
  | .fword => .fwordLo
  | .mtime => .mtimeLo

/-- The high half of a 64-bit register. -/
def wideHi : WideReg → MmioReg
  | .opa => .opaHi
  | .opb => .opbHi
  | .opc => .opcHi
  | .res => .resHi
  | .ftime => .ftimeHi
  | .fword => .fwordHi
  | .mtime => .mtimeHi

/-- `LI <X>, <imm64>` (R91). -/
def liStmts (x : OperandReg) (imm : Word64) : List HostStmt :=
  [.sw (operandLo x) (low32 imm), .sw (operandHi x) (high32 imm)]

/-- `d_word = a | b<<16 | c<<24 | d<<25 | e<<26 | f<<28` of `LDESC` (R91). -/
def ldescWord (start len be sg w64 src : Nat) : Word32 :=
  BitVec.ofNat 32
    (start ||| (len <<< 16) ||| (be <<< 24) ||| (sg <<< 25) ||| (w64 <<< 26) ||| (src <<< 28))

/-- `LDESC <k>, start=<a>, len=<b>, be=<c>, sg=<d>, w64=<e>, src=<f>` (R91). -/
def ldescStmts (k start len be sg w64 src : Nat) : List HostStmt :=
  liStmts .opa ((ldescWord start len be sg w64 src).setWidth 64) ++ [.command (.acompile k)]

/-- `FRAME <t>, <id>, <n>, <w>` (R91). -/
def frameStmts (t : Word64) (id : Word32) (n : Nat) (w : Word64) : List HostStmt :=
  liStmts .opc t ++ liStmts .opa (id.setWidth 64) ++ liStmts .opb w ++ [.command (.frameIn n)]

/-- `LD64 <X>` (R91). -/
def ld64Stmts (x : WideReg) : List HostStmt := [.lw (wideLo x), .lw (wideHi x)]

end Sys2Proof.Machine
end

