-- ==== Sys2Proof/Safety.lean ====
section
/-!
DEFINITION. What holds of every state of a run: the invariants the spec gives its registers, slots and buffers
(spec/10_state.md R29, R31, R36, R38, R39, R42, spec/42_fast_packet.md R176). A normal run ends with `STATUS.FAULT` = 0
(spec/60_exceptions.md R216).
-/

namespace Sys2Proof.Machine

/-- A state in which the block is not halted (spec/60_exceptions.md R216). -/
abbrev State.Running (s : State) : Prop := s.status.fault = false

/-- The slot files have the sizes the configuration gives (spec/00_scope.md R7, R8, spec/10_state.md R39, R41). -/
abbrev State.SizesOk (s : State) : Prop :=
  s.cfg.Legal ∧ s.acc.length = s.cfg.nAcc ∧ s.fps.length = s.cfg.nFp

/-- `FCODE` and `FOP` are 0 while the block runs, and `FCODE` is a code 0x01 to 0x07 while it is halted
(spec/10_state.md R27, R29). -/
abbrev State.StatusOk (s : State) : Prop :=
  if s.status.fault then 1 ≤ s.status.fcode.toNat ∧ s.status.fcode.toNat ≤ 7
  else s.status.fcode = 0 ∧ s.status.fop = 0

/-- The frame register: at most 8 bytes, none but 0 at or beyond `FDLC`, in canonical form (spec/10_state.md R36). -/
abbrev State.FrameOk (s : State) : Prop :=
  s.fdlc.toNat ≤ 8 ∧ Memory.wf s.fdata ∧ Memory.within s.fdlc.toNat s.fdata

/-- The message register: at most 223 bytes, none but 0 at or beyond `MLEN`, in canonical form
(spec/10_state.md R37, R38). -/
abbrev State.MessageOk (s : State) : Prop :=
  s.mlen.toNat ≤ Config.maxFpLen ∧ Memory.wf s.mbuf ∧ Memory.within s.mlen.toNat s.mbuf

/-- Every compiled slot satisfies the descriptor checks (spec/10_state.md R39). -/
abbrev State.AccessorsOk (s : State) : Prop :=
  ∀ e ∈ s.acc, (e.all Accessor.inLimits) = true

/-- A reassembly slot in use (spec/10_state.md R41, R42 (b), (c), (d)): `NEXT` is 1 to 32, fewer bytes than the total,
no more than the fragments taken can carry, and no byte stored at or beyond `COUNT`. -/
abbrev FpSlot.Ok (f : FpSlot) : Prop :=
  1 ≤ f.next.toNat ∧ f.next.toNat ≤ 32 ∧ f.count.toNat < f.total.toNat ∧
    f.count.toNat ≤ 6 + 7 * (f.next.toNat - 1) ∧ Memory.wf f.buf ∧ Memory.within f.count.toNat f.buf

/-- Two table entries in use hold one key. -/
def sameKey : Option FpSlot → Option FpSlot → Bool
  | some f, some g => f.pgn == g.pgn && f.sa == g.sa
  | _, _ => false

/-- The reassembly table (spec/10_state.md R42): every slot in use is in order, and no key has two slots (a). -/
abbrev State.TableOk (s : State) : Prop :=
  (∀ e ∈ s.fps, ∀ f ∈ e, FpSlot.Ok f) ∧ s.fps.Pairwise (fun e g => sameKey e g = false)

/-- Every event holds exactly its declared length of bytes, at most 223 (spec/42_fast_packet.md R176, R181). -/
abbrev State.OutOk (s : State) : Prop :=
  ∀ m ∈ s.out, m.bytes.length = m.len.toNat ∧ m.len.toNat ≤ Config.maxFpLen

/-- The invariant of the block. -/
abbrev State.Inv (s : State) : Prop :=
  s.SizesOk ∧ s.StatusOk ∧ s.FrameOk ∧ s.MessageOk ∧ s.AccessorsOk ∧ s.TableOk ∧ s.OutOk

/-- The reassembly state of a key: the first slot in use that holds it (spec/42_fast_packet.md R162). -/
def fpLookup (s : State) (p : PgnValue) (a : Byte) : Option FpSlot :=
  (s.fps.find? (FpSlot.hasKey p a)).join

end Sys2Proof.Machine
end

