-- ==== Sys2Proof/Certificates/Slice0/Obligations.lean ====
section
/-!
DEFINITION. The statements about the block, each from the numbered rules of spec/ named in its docstring. A statement
about all states holds for every configuration, since the configuration stands in the state.
-/

namespace Sys2Proof.Claims

open Sys2Proof.Machine

/-- The field of `len` bits from bit `lo` of a number (spec/00_scope.md R13). -/
abbrev bits (x lo len : Nat) : Nat := x / 2 ^ lo % 2 ^ len

/-- The opcode number of a command word (spec/30_encoding.md R81). -/
abbrev opcodeNumber (w : Word32) : Nat := bits w.toNat 24 8

/-- The undefined opcodes, as spec/30_encoding.md R87 lists them. -/
abbrev UndefinedOpcode (op : Nat) : Prop :=
  op = 0x00 ∨ (0x0A ≤ op ∧ op ≤ 0x0F) ∨ (0x12 ≤ op ∧ op ≤ 0x1F) ∨ (0x21 ≤ op ∧ op ≤ 0xFF)

/-- A word with a defined opcode whose format's reserved bits are not all 0 (spec/30_encoding.md R82, R86). -/
abbrev ReservedBitsSet (w : Word32) : Prop :=
  (1 ≤ opcodeNumber w ∧ opcodeNumber w ≤ 9 ∧ bits w.toNat 0 24 ≠ 0) ∨
    ((opcodeNumber w = 0x10 ∨ opcodeNumber w = 0x11) ∧ bits w.toNat 0 16 ≠ 0) ∨
    (opcodeNumber w = 0x20 ∧ bits w.toNat 4 20 ≠ 0)

/-- The state after `code` is raised by a command whose word has `op` in bits 31:24 (spec/60_exceptions.md R200). -/
abbrev faulted (s : State) (code op : Nat) : State :=
  { s with status := { fault := true, fcode := BitVec.ofNat 8 code, fop := BitVec.ofNat 8 op } }

/-- The state with the head event taken, `rest` still to come, and response `r` given to the host: what a bus access
leaves besides its effect on the block (the model's own two fields, notes/assumptions/1.md, notes/assumptions/2.md). -/
abbrev responded (s : State) (rest : List Event) (r : BusResponse) : State :=
  { s with pending := rest, bus := s.bus ++ [r] }

/-- The PGN of an identifier, as a number (spec/40_pgn_codec.md R103). -/
abbrev pgnNumber (id : Nat) : Nat :=
  if bits id 16 8 < 0xF0 then bits id 24 1 * 2 ^ 16 + bits id 16 8 * 2 ^ 8
  else bits id 24 1 * 2 ^ 16 + bits id 16 8 * 2 ^ 8 + bits id 8 8

/-- A canonical PGN value (spec/40_pgn_codec.md §4). -/
abbrev CanonicalPgn (p : Nat) : Prop := p ≤ 0x1FFFF ∧ (0xF0 ≤ bits p 8 8 ∨ bits p 0 8 = 0)

/-- The codec commands (spec/40_pgn_codec.md R105). -/
abbrev codecCommands : List Instr := [.sa, .ps, .pf, .dp, .edp, .prio, .pgn, .canid, .samepgn]

/-- `LegalDescriptor(d)` of spec/41_bit_accessor.md R131, on the number of the word. -/
abbrev LegalDescriptor (d : Nat) : Prop :=
  bits d 23 1 = 0 ∧ bits d 27 1 = 0 ∧ bits d 30 2 = 0 ∧ bits d 28 2 ≠ 3 ∧
    1 ≤ bits d 16 7 ∧ bits d 16 7 ≤ (if bits d 26 1 = 1 then 64 else 32) ∧
    bits d 0 16 + bits d 16 7 ≤ 8 * (if bits d 28 2 = 1 then 223 else 8)

/-- The accessor's fields are those of the descriptor word (spec/30_encoding.md R85). -/
abbrev HoldsDescriptor (a : Accessor) (d : Nat) : Prop :=
  a.start.toNat = bits d 0 16 ∧ a.len.toNat = bits d 16 7 ∧ a.be = decide (bits d 24 1 = 1) ∧
    a.sg = decide (bits d 25 1 = 1) ∧ a.w64 = decide (bits d 26 1 = 1) ∧ (sourceCode a.src).toNat = bits d 28 2

/-- Buffer bit `k` of a source: bit `k mod 8` of byte `k div 8` (spec/00_scope.md R16). -/
abbrev bufferBit (s : State) (src : Source) (k : Nat) : Bool := (s.bufByte src (k / 8)).getLsbD (k % 8)

/-- Slot `k` exists, holds `a`, and its field lies inside the valid data of its source: the conditions under which
`ACALL k` completes (spec/41_bit_accessor.md R142), with the length limits every compiled slot meets (R131). -/
abbrev Callable (s : State) (k : Nat) (a : Accessor) : Prop :=
  s.Running ∧ k < s.cfg.nAcc ∧ s.accAt k = some a ∧ 1 ≤ a.len.toNat ∧ a.len.toNat ≤ accessorWidth a.w64 ∧
    a.start.toNat + a.len.toNat ≤ 8 * s.sourceLen a.src

/-- The fragment in the frame register is "first of sequence" and carries its length byte
(spec/42_fast_packet.md R161, R163). -/
abbrev IsFirst (s : State) : Prop := 2 ≤ s.fdlc.toNat ∧ bits (Memory.read s.fdata 0).toNat 0 5 = 0

/-- The fragment in the frame register is a later one (spec/42_fast_packet.md R161, R163). -/
abbrev IsLater (s : State) : Prop := s.fdlc.toNat ≠ 0 ∧ bits (Memory.read s.fdata 0).toNat 0 5 ≠ 0

/-- The later fragment's counter is the expected next value of `f` (spec/42_fast_packet.md R169). -/
abbrev Expected (s : State) (f : FpSlot) : Prop :=
  bits (Memory.read s.fdata 0).toNat 5 3 = f.seq.toNat ∧ bits (Memory.read s.fdata 0).toNat 0 5 = f.next.toNat

/-- A first fragment of the key finds a slot: its own or a free one (spec/42_fast_packet.md R165, R166). -/
abbrev HasRoom (s : State) (p : PgnValue) (a : Byte) : Prop := fpLookup s p a ≠ none ∨ none ∈ s.fps

/-- Message `m` is what the message register of `t` holds (spec/42_fast_packet.md R172, R176). -/
abbrev MessageIs (t : State) (m : Msg) : Prop :=
  m.time = t.mtime ∧ m.id = t.mid ∧ m.pgn = t.mpgn ∧ m.sa = t.msa ∧ m.len = t.mlen ∧
    m.bytes = (List.range t.mlen.toNat).map (Memory.read t.mbuf)

/-- The message register, the counter and `OUT` of `t` are those of `s`. -/
abbrev NoCompletion (s t : State) : Prop :=
  t.mtime = s.mtime ∧ t.mid = s.mid ∧ t.mpgn = s.mpgn ∧ t.msa = s.msa ∧ t.mlen = s.mlen ∧ t.mbuf = s.mbuf ∧
    t.mcount = s.mcount ∧ t.out = s.out

/-- `t` is `s` after a message of key (`p`, `a`) completes: `total` bytes, byte `i` of them `byte i`
(spec/42_fast_packet.md R172, R176). -/
abbrev Delivers (s t : State) (p : PgnValue) (a total : Byte) (byte : Nat → Byte) : Prop :=
  ∃ m : Msg, MessageIs t m ∧
    m.time = s.ftime ∧ m.id = s.fid ∧ m.pgn = p ∧ m.sa = a ∧ m.len = total ∧
    (∀ i : Nat, Memory.read t.mbuf i = if i < total.toNat then byte i else 0) ∧
    t = { s with mtime := t.mtime, mid := t.mid, mpgn := t.mpgn, msa := t.msa, mlen := t.mlen, mbuf := t.mbuf,
                 mcount := s.mcount + 1, out := s.out ++ [m], fps := t.fps } ∧
    fpLookup t p a = none

/-- Byte `i` of a message, and padding beyond its end (spec/42_fast_packet.md R170). -/
def paddedByte (l : List Byte) (i : Nat) : Byte := l.getD i 0xFF

/-- Byte `i` of fragment `j` of message `l` with sequence identifier `seq` (spec/42_fast_packet.md R161): byte 0 the
sequence identifier and the frame index, byte 1 of fragment 0 the total length, then message bytes. -/
def fragmentByte (seq : BitVec 3) (l : List Byte) (j i : Nat) : Byte :=
  if i = 0 then BitVec.ofNat 8 (seq.toNat * 32 + j)
  else if j = 0 then (if i = 1 then BitVec.ofNat 8 l.length else paddedByte l (i - 2))
  else paddedByte l (6 + 7 * (j - 1) + (i - 1))

/-- Fragment `j` of message `l` as a frame of 8 data bytes at the CAN receive port. -/
def fragmentFrame (time : Word64) (id : Word32) (seq : BitVec 3) (l : List Byte) (j : Nat) : PortFrame :=
  { time := time
    id := id
    bytes := (List.range 8).map (fragmentByte seq l j)
    short := by simp }

/-- How many fragments carry a message of `n` bytes: the first takes 6, each later one 7
(spec/42_fast_packet.md R161). -/
def fragmentCount (n : Nat) : Nat := 1 + (n - 6 + 6) / 7

/-- The fragments of message `l` in order, fragment `j` with timestamp `times j`. -/
def fragmentEvents (times : Nat → Word64) (id : Word32) (seq : BitVec 3) (l : List Byte) : List Event :=
  (List.range (fragmentCount l.length)).map fun j => .frame (fragmentFrame (times j) id seq l j)

/-- The 64-bit registers of the address map, each as two words: the offset of the word and the number it holds
(spec/20_memory.md R50, R54, spec/10_state.md R35). -/
def wideValues (s : State) : List (Nat × Nat) :=
  [(0x008, bits s.opa.toNat 0 32), (0x00C, bits s.opa.toNat 32 32),
    (0x010, bits s.opb.toNat 0 32), (0x014, bits s.opb.toNat 32 32),
    (0x018, bits s.opc.toNat 0 32), (0x01C, bits s.opc.toNat 32 32),
    (0x020, bits s.res.toNat 0 32), (0x024, bits s.res.toNat 32 32),
    (0x040, bits s.ftime.toNat 0 32), (0x044, bits s.ftime.toNat 32 32),
    (0x050, (Memory.read s.fdata 4).toNat * 2 ^ 24 + (Memory.read s.fdata 5).toNat * 2 ^ 16 +
      (Memory.read s.fdata 6).toNat * 2 ^ 8 + (Memory.read s.fdata 7).toNat),
    (0x054, (Memory.read s.fdata 0).toNat * 2 ^ 24 + (Memory.read s.fdata 1).toNat * 2 ^ 16 +
      (Memory.read s.fdata 2).toNat * 2 ^ 8 + (Memory.read s.fdata 3).toNat),
    (0x060, bits s.mtime.toNat 0 32), (0x064, bits s.mtime.toNat 32 32)]

/-- The other named registers of the address map and the number a read of each returns (spec/20_memory.md R50, R53,
spec/10_state.md R27, R31, R33). -/
def narrowValues (s : State) : List (Nat × Nat) :=
  [(0x000, 0),
    (0x004, s.status.fop.toNat * 2 ^ 16 + s.status.fcode.toNat * 2 ^ 8 + s.status.fault.toNat),
    (0x028, s.mcount.toNat),
    (0x02C, 0x01 * 2 ^ 24 + 0xDF * 2 ^ 16 + s.cfg.nFp * 2 ^ 8 + s.cfg.nAcc),
    (0x048, s.fid.toNat), (0x04C, s.fdlc.toNat),
    (0x068, s.mid.toNat), (0x06C, s.mpgn.toNat), (0x070, s.msa.toNat), (0x074, s.mlen.toNat)]

/-- The six operand halves and the state after a write of `v` to each, its half replaced and the other half kept
(spec/20_memory.md R54). -/
def operandWrites (s : State) (v : Word32) : List (Nat × State) :=
  [(0x008, { s with opa := BitVec.ofNat 64 (bits s.opa.toNat 32 32 * 2 ^ 32 + v.toNat) }),
    (0x00C, { s with opa := BitVec.ofNat 64 (v.toNat * 2 ^ 32 + bits s.opa.toNat 0 32) }),
    (0x010, { s with opb := BitVec.ofNat 64 (bits s.opb.toNat 32 32 * 2 ^ 32 + v.toNat) }),
    (0x014, { s with opb := BitVec.ofNat 64 (v.toNat * 2 ^ 32 + bits s.opb.toNat 0 32) }),
    (0x018, { s with opc := BitVec.ofNat 64 (bits s.opc.toNat 32 32 * 2 ^ 32 + v.toNat) }),
    (0x01C, { s with opc := BitVec.ofNat 64 (v.toNat * 2 ^ 32 + bits s.opc.toNat 0 32) })]

/-- The number of an accessor slot's view: 0 where `V` = 0, else the descriptor layout with bit 31 = 1
(spec/10_state.md R40). -/
def slotNumber : Option Accessor → Nat
  | none => 0
  | some a =>
    a.start.toNat + a.len.toNat * 2 ^ 16 + a.be.toNat * 2 ^ 24 + a.sg.toNat * 2 ^ 25 + a.w64.toNat * 2 ^ 26 +
      (sourceCode a.src).toNat * 2 ^ 28 + 2 ^ 31

/-- The reserved offsets (spec/20_memory.md R50) and those at or beyond the window's end (R52). -/
abbrev ReservedOffset (c : Config) (off : Nat) : Prop :=
  (0x030 ≤ off ∧ off ≤ 0x03C) ∨ (0x058 ≤ off ∧ off ≤ 0x05C) ∨ (0x078 ≤ off ∧ off ≤ 0x0FC) ∨
    (0x1E0 ≤ off ∧ off ≤ 0x1FC) ∨ (0x200 + 4 * c.nAcc ≤ off ∧ off ≤ 0x2FC) ∨ 0x300 ≤ off

/-- The offsets of read-only registers (spec/20_memory.md R50, marked R). -/
abbrev ReadOnlyOffset (c : Config) (off : Nat) : Prop :=
  off = 0x004 ∨ (0x020 ≤ off ∧ off ≤ 0x02C) ∨ (0x040 ≤ off ∧ off ≤ 0x054) ∨ (0x060 ≤ off ∧ off ≤ 0x074) ∨
    (0x100 ≤ off ∧ off ≤ 0x1DC) ∨ (0x200 ≤ off ∧ off < 0x200 + 4 * c.nAcc)

/-- The fault code the checks of spec/60_exceptions.md R203 give a command word, in their order; 0 where none fails. -/
def expectedFault (s : State) (w : Word32) : Nat :=
  if UndefinedOpcode (opcodeNumber w) then 1
  else if ReservedBitsSet w then 2
  else if (opcodeNumber w = 0x10 ∨ opcodeNumber w = 0x11) ∧ s.cfg.nAcc ≤ bits w.toNat 16 8 then 3
  else if opcodeNumber w = 0x20 ∧ 8 < bits w.toNat 0 4 then 7
  else if opcodeNumber w = 0x10 ∧ ¬ LegalDescriptor (bits s.opa.toNat 0 32) then 4
  else if opcodeNumber w = 0x11 ∧ s.accAt (bits w.toNat 16 8) = none then 5
  else if opcodeNumber w = 0x11 ∧
      ∃ a ∈ s.accAt (bits w.toNat 16 8), 8 * s.sourceLen a.src < a.start.toNat + a.len.toNat then 6
  else 0

/-- What `LI <X>, <imm64>` leaves: `X` holds the immediate, and nothing else of the block changes
(spec/30_encoding.md R91). -/
def withOperand (s : State) (x : OperandReg) (v : Word64) : State :=
  match x with
  | .opa => { s with opa := v }
  | .opb => { s with opb := v }
  | .opc => { s with opc := v }

end Sys2Proof.Claims

section
open Sys2Proof Sys2Proof.Machine Sys2Proof.Claims

/-! ### Encoding -/

/-- Decoding the word of a well-formed command gives it back (spec/30_encoding.md §1, §2, §4). -/
def Obligations.CommandWordsRoundTrip : Prop :=
  ∀ i : Instr, i.wf = true → decode (encode i) = .instr i

/-- A word that decodes to a command is that command's only word (spec/30_encoding.md §4: every word is one command
or illegal). -/
def Obligations.DecodedWordIsItsEncoding : Prop :=
  ∀ (w : Word32) (i : Instr), decode w = .instr i → i.wf = true ∧ encode i = w

/-- Words written out from the opcode map and the formats decode to their commands, and neighbours are illegal
(spec/30_encoding.md §1, §2). -/
def Obligations.SampleWordsDecode : Prop :=
  decode 0x01000000#32 = .instr .sa ∧ decode 0x07000000#32 = .instr .pgn ∧ decode 0x09000000#32 = .instr .samepgn ∧
    decode 0x10030000#32 = .instr (.acompile 3) ∧ decode 0x11FF0000#32 = .instr (.acall 255) ∧
    decode 0x20000008#32 = .instr (.frameIn 8) ∧ decode 0x2000000F#32 = .instr (.frameIn 15) ∧
    decode 0x00000000#32 = .illegal .illegalOpcode ∧ decode 0x20000010#32 = .illegal .reservedBits

/-- spec/30_encoding.md R87: executing a word with an undefined opcode raises ILLEGAL_OPCODE and has no other
effect. The bus takes the write (the model's response log, notes/assumptions/2.md). -/
def Obligations.UndefinedOpcodeFaults : Prop :=
  ∀ (s : State) (w : Word32) (rest : List Event),
    s.Running → s.pending = .write .w32 s.cfg.base w :: rest → UndefinedOpcode (opcodeNumber w) →
      step s = .next (faulted (responded s rest .done) 0x01 (opcodeNumber w))

/-- spec/30_encoding.md R86: executing a word with a defined opcode and reserved bits not all 0 raises RESERVED_BITS
and has no other effect. -/
def Obligations.ReservedBitsFault : Prop :=
  ∀ (s : State) (w : Word32) (rest : List Event),
    s.Running → s.pending = .write .w32 s.cfg.base w :: rest → ReservedBitsSet w →
      step s = .next (faulted (responded s rest .done) 0x02 (opcodeNumber w))

/-- A step whose agent step is a write of a command's word to `CMD` is `exec` of that command, in the state with the
event taken and the bus write acknowledged (spec/10_state.md §3; `pending` and `bus` are the model's,
notes/assumptions/1.md, notes/assumptions/2.md). -/
def Obligations.StepExecutesWrittenCommand : Prop :=
  ∀ (s : State) (w : Word32) (i : Instr) (rest : List Event),
    s.pending = .write .w32 s.cfg.base w :: rest → decode w = .instr i →
      step s = exec i (responded s rest .done)

/-! ### PGN codec -/

/-- spec/40_pgn_codec.md R106 to R111: the six field commands, their words, and `RES` after each; nothing else changes.
COMPLETION of SA, PS, PF, DP, EDP, PRIO. -/
def Obligations.FieldCommandsGiveTheirFields : Prop :=
  (decode 0x01000000#32 = .instr .sa ∧ decode 0x02000000#32 = .instr .ps ∧ decode 0x03000000#32 = .instr .pf ∧
    decode 0x04000000#32 = .instr .dp ∧ decode 0x05000000#32 = .instr .edp ∧ decode 0x06000000#32 = .instr .prio) ∧
  ∀ s : State, s.Running →
    exec .sa s = .next { s with res := BitVec.ofNat 64 (bits s.opa.toNat 0 8) } ∧
    exec .ps s = .next { s with res := BitVec.ofNat 64 (bits s.opa.toNat 8 8) } ∧
    exec .pf s = .next { s with res := BitVec.ofNat 64 (bits s.opa.toNat 16 8) } ∧
    exec .dp s = .next { s with res := BitVec.ofNat 64 (bits s.opa.toNat 24 1) } ∧
    exec .edp s = .next { s with res := BitVec.ofNat 64 (bits s.opa.toNat 25 1) } ∧
    exec .prio s = .next { s with res := BitVec.ofNat 64 (bits s.opa.toNat 26 2) }

/-- spec/40_pgn_codec.md R103, R112: `PGN`, both branches. COMPLETION of PGN. -/
def Obligations.PgnCommandGivesPgn : Prop :=
  decode 0x07000000#32 = .instr .pgn ∧
  ∀ s : State, s.Running → exec .pgn s = .next { s with res := BitVec.ofNat 64 (pgnNumber s.opa.toNat) }

/-- spec/40_pgn_codec.md R113: `CANID`. COMPLETION of CANID. -/
def Obligations.CanidCommandGivesIdentifier : Prop :=
  decode 0x08000000#32 = .instr .canid ∧
  ∀ s : State, s.Running →
    exec .canid s = .next { s with res := BitVec.ofNat 64 (((s.opa.toNat &&& 0x1FFFF) <<< 8) ||| 0xFE) }

/-- spec/40_pgn_codec.md R114: `SAMEPGN`. COMPLETION of SAMEPGN. -/
def Obligations.SamepgnCommandComparesPgns : Prop :=
  decode 0x09000000#32 = .instr .samepgn ∧
  ∀ s : State, s.Running →
    exec .samepgn s =
      .next { s with res := if pgnNumber s.opa.toNat = pgnNumber s.opb.toNat then 1 else 0 }

/-- spec/40_pgn_codec.md R105: every codec command is format Z, writes only `RES`, reads only `OPA[31:0]` (and
`OPB[31:0]` for SAMEPGN), is ignored while the block is halted, and can fault only by its reserved bits. The FRAME of the
codec commands. -/
def Obligations.CodecCommandsArePure : Prop :=
  ∀ i ∈ codecCommands,
    encode i = opcodeOf i ++ 0#24 ∧
    (∀ s : State, s.Running → ∃ v : Word64, exec i s = .next { s with res := v }) ∧
    (∀ s : State, s.status.fault = true → exec i s = .next s) ∧
    (∀ s t s' t' : State, s.Running → t.Running → bits s.opa.toNat 0 32 = bits t.opa.toNat 0 32 →
      (i = .samepgn → bits s.opb.toNat 0 32 = bits t.opb.toNat 0 32) →
      exec i s = .next s' → exec i t = .next t' → s'.res = t'.res) ∧
    (∀ (s t : State) (w : Word32), s.Running → opcodeNumber w = (opcodeOf i).toNat → execWord w s = .next t →
      (bits w.toNat 0 24 ≠ 0 → t = faulted s 0x02 (opcodeNumber w)) ∧ (bits w.toNat 0 24 = 0 → t.Running))

/-- The PGN, then a canonical identifier for it, then that identifier's PGN: the same PGN comes back
(spec/40_pgn_codec.md §4; the spec marks this law as derived from its rules of `pgn` and `canId`). -/
def Obligations.PgnSurvivesCanidRoundTrip : Prop :=
  ∀ s : State, s.Running → ∃ s₁ s₂ s₃ : State,
    exec .pgn s = .next s₁ ∧ exec .canid { s₁ with opa := s₁.res } = .next s₂ ∧
      exec .pgn { s₂ with opa := s₂.res } = .next s₃ ∧ s₃.res = s₁.res

/-- The canonical values are exactly those `pgn` returns and exactly those `canId` carries back, and `canId` is
injective on them (spec/40_pgn_codec.md §4; the spec marks this law as derived). -/
def Obligations.CanonicalPgnsAreTheImage : Prop :=
  (∀ p : Word32, CanonicalPgn p.toNat ↔ ∃ id : Word32, (pgnOf id).toNat = p.toNat) ∧
  (∀ p : Word32, CanonicalPgn p.toNat ↔ (pgnOf (canIdOf p)).toNat = p.toNat) ∧
  (∀ p q : Word32, CanonicalPgn p.toNat → CanonicalPgn q.toNat → canIdOf p = canIdOf q → p = q)

/-! ### Bit accessors -/

/-- spec/41_bit_accessor.md R131, R141: `ACOMPILE k` has the word `0x10000000 | k << 16`; it faults BAD_SLOT, then BAD_DESCRIPTOR, or stores the descriptor in
slot k alone; nothing else changes. COMPLETION and FRAME of ACOMPILE. -/
def Obligations.AcompileStoresDescriptor : Prop :=
  (∀ k : Nat, k ≤ 255 → decode (BitVec.ofNat 32 (0x10000000 ||| (k <<< 16))) = .instr (.acompile k)) ∧
  ∀ (s : State) (k : Nat), s.Running →
    (s.cfg.nAcc ≤ k → exec (.acompile k) s = .next (faulted s 0x03 0x10)) ∧
    (k < s.cfg.nAcc → ¬ LegalDescriptor (bits s.opa.toNat 0 32) →
      exec (.acompile k) s = .next (faulted s 0x04 0x10)) ∧
    (k < s.cfg.nAcc → LegalDescriptor (bits s.opa.toNat 0 32) →
      ∃ a : Accessor, HoldsDescriptor a (bits s.opa.toNat 0 32) ∧
        exec (.acompile k) s = .next { s with acc := s.acc.set k (some a) })

/-- A slot that `ACOMPILE` has just compiled reads back as its descriptor word with bit 31 set, and the read changes
nothing (spec/10_state.md §7, spec/20_memory.md §2). -/
def Obligations.CompiledSlotReadsBack : Prop :=
  ∀ (s t : State) (k : Nat) (rest : List Event),
    s.Running → s.SizesOk → k < s.cfg.nAcc → LegalDescriptor (bits s.opa.toNat 0 32) →
    exec (.acompile k) s = .next t →
      step { t with pending := .read .w32 (t.cfg.base + 0x200 + 4 * k) :: rest } =
        .next (responded t rest (.data (BitVec.ofNat 32 (bits s.opa.toNat 0 32 + 2 ^ 31))))

/-- spec/41_bit_accessor.md R142: `ACALL k` has the word `0x11000000 | k << 16`; it faults BAD_SLOT, SLOT_EMPTY or RANGE, the first check that fails, or writes
`Extract` of the slot's field to `RES`; nothing else changes. RANGE can arise only for source MSG, where every
compiled slot is within its limits. COMPLETION and FRAME of ACALL. -/
def Obligations.AcallGivesField : Prop :=
  (∀ k : Nat, k ≤ 255 → decode (BitVec.ofNat 32 (0x11000000 ||| (k <<< 16))) = .instr (.acall k)) ∧
  ∀ (s : State) (k : Nat), s.Running →
    (s.cfg.nAcc ≤ k → exec (.acall k) s = .next (faulted s 0x03 0x11)) ∧
    (k < s.cfg.nAcc → s.accAt k = none → exec (.acall k) s = .next (faulted s 0x05 0x11)) ∧
    (∀ a : Accessor, k < s.cfg.nAcc → s.accAt k = some a →
      (8 * s.sourceLen a.src < a.start.toNat + a.len.toNat → exec (.acall k) s = .next (faulted s 0x06 0x11)) ∧
      (a.start.toNat + a.len.toNat ≤ 8 * s.sourceLen a.src →
        exec (.acall k) s =
          .next { s with res := BitVec.ofNat 64 (extractField (s.bufByte a.src) a.start.toNat a.len.toNat a.be a.sg
                                  (if a.w64 then 64 else 32)) }) ∧
      (s.AccessorsOk → a.src ≠ .msg → a.start.toNat + a.len.toNat ≤ 8 * s.sourceLen a.src))

/-- spec/41_bit_accessor.md R134: little-endian order. Bit j of the unsigned result is buffer bit START + j for j below
LEN, and 0 above. -/
def Obligations.LittleEndianFieldBits : Prop :=
  ∀ (s : State) (k : Nat) (a : Accessor), Callable s k a → a.be = false → a.sg = false →
    ∃ t : State, exec (.acall k) s = .next t ∧
      ∀ j : Nat, t.res.getLsbD j = (decide (j < a.len.toNat) && bufferBit s a.src (a.start.toNat + j))

/-- spec/41_bit_accessor.md R135: big-endian order. Buffer bit m of the field, in byte m div 8 whose chunk runs from
`lo` to `hi`, is the bit of the unsigned result as far above the later bytes' chunks as it is above `lo`; no bit
stands at or above LEN. -/
def Obligations.BigEndianFieldBits : Prop :=
  ∀ (s : State) (k : Nat) (a : Accessor), Callable s k a → a.be = true → a.sg = false →
    ∃ t : State, exec (.acall k) s = .next t ∧ t.res.toNat < 2 ^ a.len.toNat ∧
      ∀ m : Nat, a.start.toNat ≤ m → m < a.start.toNat + a.len.toNat →
        t.res.getLsbD
          ((a.start.toNat + a.len.toNat - 1 - min (a.start.toNat + a.len.toNat - 1) (8 * (m / 8) + 7)) +
            (m - max a.start.toNat (8 * (m / 8)))) = bufferBit s a.src m

/-- spec/41_bit_accessor.md R136: a signed accessor gives the unsigned one's value, with 1-bits from LEN up to the
accessor's width where the most significant extracted bit is 1. -/
def Obligations.SignedFieldIsExtended : Prop :=
  ∀ (s : State) (k : Nat) (a : Accessor), Callable s k a → a.sg = true →
    ∃ u : Nat, u < 2 ^ a.len.toNat ∧
      (∀ s' : State, s' = { s with acc := s.acc.set k (some { a with sg := false }) } → k < s.acc.length →
        exec (.acall k) s' = .next { s' with res := BitVec.ofNat 64 u }) ∧
      exec (.acall k) s =
        .next { s with res := BitVec.ofNat 64 (if u.testBit (a.len.toNat - 1)
                                then u + ((if a.w64 then 2 ^ 64 else 2 ^ 32) - 2 ^ a.len.toNat) else u) }

/-- A field inside one byte does not depend on the order (spec/41_bit_accessor.md §4; the spec marks this law as
derived). -/
def Obligations.SingleByteFieldIgnoresOrder : Prop :=
  ∀ (s : State) (a : Accessor), 1 ≤ a.len.toNat →
    a.start.toNat / 8 = (a.start.toNat + a.len.toNat - 1) / 8 →
      s.accessorValue { a with be := true } = s.accessorValue { a with be := false }

/-- A byte-aligned big-endian field is the little-endian one with its bytes in reverse order (spec/41_bit_accessor.md
§4; the spec marks this law as derived). -/
def Obligations.AlignedBigEndianReversesBytes : Prop :=
  ∀ (s : State) (a : Accessor), a.sg = false → 1 ≤ a.len.toNat → a.len.toNat ≤ 64 →
    a.start.toNat % 8 = 0 → a.len.toNat % 8 = 0 →
      ∀ i : Nat, i < a.len.toNat / 8 →
        bits (s.accessorValue { a with be := true }).toNat (8 * i) 8 =
          bits (s.accessorValue { a with be := false }).toNat (a.len.toNat - 8 - 8 * i) 8

/-- The word forms over the packed operand word: little-endian is a shift of the byte-reversed word, byte-aligned
big-endian a shift of the word (spec/41_bit_accessor.md §2, spec/20_memory.md §2; the spec marks these forms as
derived). -/
def Obligations.OperandWordForms : Prop :=
  ∀ (s : State) (a : Accessor), a.src = .opb → a.sg = false → 1 ≤ a.len.toNat →
    a.start.toNat + a.len.toNat ≤ 64 →
      (a.be = false →
        (s.accessorValue a).toNat =
          bits (pack fun i => unpack s.opb (7 - i)).toNat a.start.toNat a.len.toNat) ∧
      (a.be = true → a.start.toNat % 8 = 0 → a.len.toNat % 8 = 0 →
        (s.accessorValue a).toNat = bits s.opb.toNat (64 - a.start.toNat - a.len.toNat) a.len.toNat)

/-- After `FRAME_IN 8` one descriptor gives the same value over FRAME and over OPB (spec/41_bit_accessor.md §4; the
spec marks this law as derived). -/
def Obligations.FrameAndOperandSourcesAgree : Prop :=
  ∀ (s : State) (j k : Nat) (a : Accessor), s.Running → j < s.cfg.nAcc → k < s.cfg.nAcc →
    s.accAt j = some { a with src := .frame } → s.accAt k = some { a with src := .opb } →
    1 ≤ a.len.toNat → a.start.toNat + a.len.toNat ≤ 64 →
      ∃ t u v : State, exec (.frameIn 8) s = .next t ∧ exec (.acall j) t = .next u ∧ exec (.acall k) t = .next v ∧
        u.res = v.res

/-! ### Frame input -/

/-- spec/42_fast_packet.md R160: a frame the block takes, from `FRAME_IN n` or from the CAN receive port, is latched in
the frame register with bytes at or beyond the data length 0, and a frame of a PGN in `FP_PGNS` makes one reassembly
step; otherwise nothing else changes. COMPLETION of FRAME_IN. -/
def Obligations.FrameArrivalLatchesTheFrame : Prop :=
  (∀ (s : State) (n : Nat), s.Running → n ≤ 8 →
    ∃ l t : State,
      exec (.frameIn n) s = .next t ∧
      l = { s with ftime := s.opc, fid := BitVec.ofNat 32 s.opa.toNat, fdlc := BitVec.ofNat 4 n, fdata := l.fdata } ∧
      (∀ i : Nat, Memory.read l.fdata i =
        if i < n then BitVec.ofNat 8 (bits s.opb.toNat (56 - 8 * i) 8) else 0) ∧
      (BitVec.ofNat 17 (pgnNumber s.opa.toNat) ∈ s.cfg.fpPgns →
        t = fpStep l (BitVec.ofNat 17 (pgnNumber s.opa.toNat)) (BitVec.ofNat 8 s.opa.toNat)) ∧
      (BitVec.ofNat 17 (pgnNumber s.opa.toNat) ∉ s.cfg.fpPgns → t = l)) ∧
  (∀ (s : State) (f : PortFrame) (rest : List Event), s.Running → s.pending = .frame f :: rest →
    ∃ l t : State,
      step s = .next t ∧
      l = { s with pending := rest, ftime := f.time, fid := f.id, fdlc := BitVec.ofNat 4 f.bytes.length,
                   fdata := l.fdata } ∧
      (∀ i : Nat, Memory.read l.fdata i = f.bytes.getD i 0) ∧
      (BitVec.ofNat 17 (pgnNumber f.id.toNat) ∈ s.cfg.fpPgns →
        t = fpStep l (BitVec.ofNat 17 (pgnNumber f.id.toNat)) (BitVec.ofNat 8 f.id.toNat)) ∧
      (BitVec.ofNat 17 (pgnNumber f.id.toNat) ∉ s.cfg.fpPgns → t = l))

/-- `FRAME_IN n` with n above 8 raises BAD_DLC and nothing of the frame's arrival happens (spec/42_fast_packet.md §4). -/
def Obligations.FrameInBadDlcFaults : Prop :=
  ∀ (s : State) (n : Nat), s.Running → 8 < n → exec (.frameIn n) s = .next (faulted s 0x07 0x20)

/-- What `FRAME_IN` leaves unchanged, its FRAME: the operand and result registers, the accessor slots and the
configuration always; `STATUS` for a legal data length; the message register, its bytes and `OUT` unless a message completes;
the reassembly state of every key but the frame's; every byte of the frame register beyond its eight
(spec/42_fast_packet.md §4, spec/10_state.md §6). -/
def Obligations.FrameInFrame : Prop :=
  ∀ (s t : State) (n : Nat), exec (.frameIn n) s = .next t →
    t.cfg = s.cfg ∧ t.opa = s.opa ∧ t.opb = s.opb ∧ t.opc = s.opc ∧ t.res = s.res ∧ t.acc = s.acc ∧
    t.pending = s.pending ∧ t.bus = s.bus ∧
    (n ≤ 8 → t.status = s.status) ∧
    (8 < n ∨ s.status.fault = true → t = { s with status := t.status }) ∧
    (t.mcount = s.mcount → NoCompletion s t) ∧
    (s.FrameOk → ∀ i : Nat, 8 ≤ i → Memory.read t.fdata i = Memory.read s.fdata i) ∧
    (s.TableOk → ∀ (q : PgnValue) (b : Byte),
      ¬ (q = pgnOf (low32 s.opa) ∧ b = sourceAddress (low32 s.opa)) → fpLookup t q b = fpLookup s q b)

/-- spec/42_fast_packet.md R179: a frame at the CAN receive port does what `FRAME_IN` does with the frame's identifier,
timestamp, data length and packed payload, but reads and writes none of `OPA`, `OPB`, `OPC`, `RES` and raises no fault. -/
def Obligations.PortFrameActsAsFrameIn : Prop :=
  ∀ (s : State) (f : PortFrame) (rest : List Event), s.Running → s.pending = .frame f :: rest →
    ∃ (w : Word64) (t v : State),
      (∀ i : Nat, i < 8 → BitVec.ofNat 8 (bits w.toNat (56 - 8 * i) 8) = f.bytes.getD i 0) ∧
      exec (.frameIn f.bytes.length) { s with pending := rest, opa := f.id.setWidth 64, opb := w, opc := f.time } =
        .next v ∧
      t = { v with opa := s.opa, opb := s.opb, opc := s.opc } ∧ t.res = s.res ∧ t.status = s.status ∧
      step s = .next t

/-- spec/42_fast_packet.md R180: while the block is halted a port frame is discarded, and no state changes (but the
model's own queue of steps to come). -/
def Obligations.HaltedPortFrameDiscarded : Prop :=
  ∀ (s : State) (f : PortFrame) (rest : List Event), s.status.fault = true → s.pending = .frame f :: rest →
    step s = .next { s with pending := rest }

/-! ### Fast-packet reassembly: the step of a fragment of key (p, a) that the frame register holds -/

/-- A first fragment that does not complete its message: the key's state is opened or overwritten with the declared total
and the bytes the fragment carries, and nothing else changes (spec/42_fast_packet.md §2). -/
def Obligations.FirstFragmentOpensState : Prop :=
  ∀ (s : State) (p : PgnValue) (a : Byte), s.FrameOk → s.TableOk → IsFirst s → HasRoom s p a →
    s.fdlc.toNat - 2 < (Memory.read s.fdata 1).toNat →
      fpStep s p a = { s with fps := (fpStep s p a).fps } ∧
      ∃ f : FpSlot, fpLookup (fpStep s p a) p a = some f ∧
        f.total = Memory.read s.fdata 1 ∧ f.count.toNat = s.fdlc.toNat - 2 ∧
        f.seq.toNat = bits (Memory.read s.fdata 0).toNat 5 3 ∧ f.next = 1 ∧
        ∀ i : Nat, Memory.read f.buf i = if i < s.fdlc.toNat - 2 then Memory.read s.fdata (2 + i) else 0

/-- spec/42_fast_packet.md R164: a malformed fragment discards the key's state, creates none, and raises no fault. -/
def Obligations.MalformedFragmentDiscards : Prop :=
  ∀ (s : State) (p : PgnValue) (a : Byte), s.TableOk →
    (s.fdlc.toNat = 0 ∨ (s.fdlc.toNat = 1 ∧ bits (Memory.read s.fdata 0).toNat 0 5 = 0)) →
      fpStep s p a = { s with fps := (fpStep s p a).fps } ∧ fpLookup (fpStep s p a) p a = none

/-- spec/42_fast_packet.md R166: with every slot in use, a first fragment of a key that has none is dropped, even where
its declared length would complete it. -/
def Obligations.FullTableDropsFirstFragment : Prop :=
  ∀ (s : State) (p : PgnValue) (a : Byte), IsFirst s → fpLookup s p a = none → none ∉ s.fps → fpStep s p a = s

/-- spec/42_fast_packet.md R168: a later fragment of a key with no state is dropped. -/
def Obligations.LaterFragmentWithoutStateDropped : Prop :=
  ∀ (s : State) (p : PgnValue) (a : Byte), IsLater s → fpLookup s p a = none → fpStep s p a = s

/-- spec/42_fast_packet.md R169: a later fragment whose sequence identifier or index is not the expected one discards
the state, silently. -/
def Obligations.UnexpectedFragmentDiscards : Prop :=
  ∀ (s : State) (p : PgnValue) (a : Byte) (f : FpSlot), s.TableOk → IsLater s → fpLookup s p a = some f →
    ¬ Expected s f →
      fpStep s p a = { s with fps := (fpStep s p a).fps } ∧ fpLookup (fpStep s p a) p a = none

/-- The expected fragment of a message that is not complete yet appends its bytes, `COUNT` and `NEXT` advance, and nothing
else changes (spec/42_fast_packet.md §2). -/
def Obligations.ExpectedFragmentAppends : Prop :=
  ∀ (s : State) (p : PgnValue) (a : Byte) (f : FpSlot), s.FrameOk → s.TableOk → IsLater s →
    fpLookup s p a = some f → Expected s f → f.count.toNat + (s.fdlc.toNat - 1) < f.total.toNat →
      fpStep s p a = { s with fps := (fpStep s p a).fps } ∧
      ∃ g : FpSlot, fpLookup (fpStep s p a) p a = some g ∧
        g = { f with count := g.count, next := g.next, buf := g.buf } ∧
        g.count.toNat = f.count.toNat + (s.fdlc.toNat - 1) ∧ g.next.toNat = f.next.toNat + 1 ∧
        ∀ i : Nat, Memory.read g.buf i =
          if f.count.toNat ≤ i ∧ i < g.count.toNat then Memory.read s.fdata (1 + (i - f.count.toNat))
          else Memory.read f.buf i

/-- spec/42_fast_packet.md R172: the fragment that reaches the declared total, the first one or a later one, completes
the message in its step: the message register with the frame's time and identifier, the bytes of the total and no
more, the counter, one event, and the slot freed. -/
def Obligations.CompletingFragmentDelivers : Prop :=
  (∀ (s : State) (p : PgnValue) (a : Byte), s.FrameOk → s.TableOk → IsFirst s → HasRoom s p a →
    (Memory.read s.fdata 1).toNat ≤ s.fdlc.toNat - 2 →
      Delivers s (fpStep s p a) p a (Memory.read s.fdata 1) (fun i => Memory.read s.fdata (2 + i))) ∧
  (∀ (s : State) (p : PgnValue) (a : Byte) (f : FpSlot), s.FrameOk → s.TableOk → IsLater s →
    fpLookup s p a = some f → Expected s f → f.total.toNat ≤ f.count.toNat + (s.fdlc.toNat - 1) →
      Delivers s (fpStep s p a) p a f.total (fun i =>
        if i < f.count.toNat then Memory.read f.buf i else Memory.read s.fdata (1 + (i - f.count.toNat))))

/-- A fragment of one key leaves the reassembly state of every other key as it was (spec/42_fast_packet.md §1, §5:
"Reassembly is never shared across source addresses"; the spec marks the interleaving law as derived). -/
def Obligations.KeysReassembleIndependently : Prop :=
  ∀ (s : State) (p q : PgnValue) (a b : Byte), s.TableOk → ¬ (q = p ∧ b = a) →
    fpLookup (fpStep s p a) q b = fpLookup s q b

/-- A declared total above 223 never completes: a later fragment emits nothing, and the one after index 31 discards
the state (spec/42_fast_packet.md §5; the spec marks this law as derived). -/
def Obligations.OversizedTotalNeverCompletes : Prop :=
  ∀ (s : State) (p : PgnValue) (a : Byte) (f : FpSlot), s.FrameOk → s.TableOk → IsLater s →
    fpLookup s p a = some f → 223 < f.total.toNat →
      NoCompletion s (fpStep s p a) ∧
      (f.next.toNat = 32 → fpLookup (fpStep s p a) p a = none) ∧
      (∀ g : FpSlot, fpLookup (fpStep s p a) p a = some g → g.total = f.total ∧ g.count.toNat ≤ 223)

/-- Every step but reset, from a state that meets the invariant, emits at most one event, and emits it exactly when
`MCOUNT` moves, by one, and the message register takes the message (spec/42_fast_packet.md §3, spec/10_state.md §4, §6). -/
def Obligations.OneEventPerCompletion : Prop :=
  ∀ (s t : State), s.Inv → step s = .next t → s.pending.head? ≠ some .reset →
    NoCompletion s t ∨ ∃ m : Msg, t.out = s.out ++ [m] ∧ t.mcount = s.mcount + 1 ∧ MessageIs t m

/-- The whole of reassembly: the fragments of any message of at most 223 bytes, delivered in order at the CAN receive
port, give exactly that message, once, with the last fragment's time, whatever the rest of the state
(spec/42_fast_packet.md §1 to §3). -/
def Obligations.FragmentedMessageIsReassembled : Prop :=
  ∀ (s : State) (times : Nat → Word64) (id : Word32) (seq : BitVec 3) (l : List Byte) (rest : List Event),
    s.Inv → s.Running → pgnOf id ∈ s.cfg.fpPgns → HasRoom s (pgnOf id) (sourceAddress id) → l.length ≤ 223 →
    s.pending = fragmentEvents times id seq l ++ rest →
      ∃ t : State, Host.Core.run Sys2Proof.core (fragmentCount l.length) s = .next t ∧
        t.out = s.out ++ [{ time := times (fragmentCount l.length - 1), id := id, pgn := pgnOf id,
                            sa := sourceAddress id, len := BitVec.ofNat 8 l.length, bytes := l }] ∧
        t.mcount = s.mcount + 1 ∧ t.mlen.toNat = l.length ∧ (∀ i : Nat, Memory.read t.mbuf i = l.getD i 0) ∧
        fpLookup t (pgnOf id) (sourceAddress id) = none ∧ t.Running ∧ t.pending = rest

/-! ### Faults, halting, reset -/

/-- spec/60_exceptions.md R204: while halted, a write to `CMD` is accepted and ignored, a port frame is discarded, reads
give what they give in a running block (the read of `STATUS` its word), and operand writes change their registers. -/
def Obligations.HaltedBlockBehaviour : Prop :=
  ∀ (s : State) (rest : List Event), s.status.fault = true →
    (∀ w : Word32, s.pending = .write .w32 s.cfg.base w :: rest → step s = .next (responded s rest .done)) ∧
    (∀ f : PortFrame, s.pending = .frame f :: rest → step s = .next { s with pending := rest }) ∧
    (∀ (width : Width) (addr : Nat) (u : State), s.pending = .read width addr :: rest → addr ≠ s.cfg.base + 0x004 →
      u = { s with status := { fault := false, fcode := 0, fop := 0 } } →
        ∃ r : BusResponse, step s = .next (responded s rest r) ∧ step u = .next (responded u rest r)) ∧
    (s.pending = .read .w32 (s.cfg.base + 0x004) :: rest →
      step s = .next (responded s rest (.data (BitVec.ofNat 32
        (s.status.fop.toNat * 2 ^ 16 + s.status.fcode.toNat * 2 ^ 8 + 1))))) ∧
    (∀ (off : Nat) (v : Word32) (t : State), s.pending = .write .w32 (s.cfg.base + off) v :: rest →
      (off, t) ∈ operandWrites (responded s rest .done) v → step s = .next t)

/-- spec/60_exceptions.md R205: no step but reset changes `STATUS` while the block is halted, and reset clears it. -/
def Obligations.OnlyResetLeavesFaultState : Prop :=
  ∀ (s t : State), s.status.fault = true → step s = .next t →
    (s.pending.head? ≠ some .reset → t.status = s.status) ∧
    (s.pending.head? = some .reset → t.status = { fault := false, fcode := 0, fop := 0 })

/-- spec/60_exceptions.md R200, R207: only a command written to `CMD` raises a fault, and it changes nothing except
`STATUS`, which takes the fault, a code 0x01 to 0x07 and bits 31:24 of the command word. -/
def Obligations.FaultsArePrecise : Prop :=
  ∀ (s t : State), s.Running → step s = .next t → t.status.fault = true →
    ∃ (w : Word32) (rest : List Event) (code : Nat), s.pending = .write .w32 s.cfg.base w :: rest ∧
      1 ≤ code ∧ code ≤ 7 ∧ t = faulted (responded s rest .done) code (opcodeNumber w)

/-- spec/60_exceptions.md R203: a command raises the fault of the first check that fails, in the order given, and none
where none fails. -/
def Obligations.FirstFailingCheckIsTheFault : Prop :=
  ∀ (s : State) (w : Word32), s.Running →
    ∃ t : State, execWord w s = .next t ∧ t.status.fault = decide (expectedFault s w ≠ 0) ∧
      (expectedFault s w ≠ 0 → t.status.fcode.toNat = expectedFault s w)

/-- The machine never stops: every step answers a next state (spec/60_exceptions.md §5). -/
def Obligations.EveryStepAnswers : Prop :=
  ∀ s : State, ∃ t : State, step s = .next t

/-- The reset state of every legal configuration meets the invariant, the host's reset state among them
(spec/10_state.md §10; that state's parameters are the model's choice, notes/assumptions/3.md). -/
def Obligations.ResetStateMeetsInvariant : Prop :=
  (∀ c : Config, c.Legal → (State.resetOf c).Inv) ∧ State.reset.Inv

/-- Every step from a state that meets the invariant leads to one that meets it: the buffers keep their canonical form
and hold 0 beyond their lengths, `STATUS` keeps its legal values, compiled slots stay legal, and the reassembly table
keeps its order (spec/10_state.md §4 to §8). -/
def Obligations.StepKeepsInvariant : Prop :=
  ∀ (s t : State), s.Inv → step s = .next t → t.Inv

/-- Reset gives every element its reset value, and `OUT` and the configuration stay; the block starts in that state
(spec/10_state.md §10, spec/70_reset_and_hazards.md §1). Two clauses are the model's: that the block starts with `OUT`
empty (DEDUCED, notes/assumptions/16.md), and that reset keeps the lists `pending` and `bus` (DESIGN CHOICE,
notes/assumptions/20.md). -/
def Obligations.ResetGivesResetValues : Prop :=
  (∀ (s : State) (rest : List Event), s.pending = .reset :: rest →
    step s = .next
      { cfg := s.cfg, opa := 0, opb := 0, opc := 0, res := 0, status := { fault := false, fcode := 0, fop := 0 },
        mcount := 0, ftime := 0, fid := 0, fdlc := 0, fdata := [], mtime := 0, mid := 0, mpgn := 0, msa := 0,
        mlen := 0, mbuf := [], acc := List.replicate s.cfg.nAcc none, fps := List.replicate s.cfg.nFp none,
        out := s.out, pending := rest, bus := s.bus }) ∧
  ∀ c : Config, State.resetOf c =
      { cfg := c, opa := 0, opb := 0, opc := 0, res := 0, status := { fault := false, fcode := 0, fop := 0 },
        mcount := 0, ftime := 0, fid := 0, fdlc := 0, fdata := [], mtime := 0, mid := 0, mpgn := 0, msa := 0,
        mlen := 0, mbuf := [], acc := List.replicate c.nAcc none, fps := List.replicate c.nFp none,
        out := [], pending := [], bus := [] }

/-! ### The register window -/

/-- spec/20_memory.md R51: an access of another width than 32 bits, or at an offset that is no multiple of 4, gets a bus
error and changes no state. -/
def Obligations.OddAccessesGetBusErrors : Prop :=
  ∀ (s : State) (width : Width) (off : Nat) (v : Word32) (rest : List Event), width ≠ .w32 ∨ off % 4 ≠ 0 →
    (s.pending = .read width (s.cfg.base + off) :: rest →
      step s = .next (responded s rest .busError)) ∧
    (s.pending = .write width (s.cfg.base + off) v :: rest →
      step s = .next (responded s rest .busError))

/-- spec/20_memory.md R52: an aligned 32-bit access to a reserved offset or beyond the window gets a bus error and
changes no state. -/
def Obligations.ReservedOffsetsGetBusErrors : Prop :=
  ∀ (s : State) (off : Nat) (v : Word32) (rest : List Event), off % 4 = 0 → ReservedOffset s.cfg off →
    (s.pending = .read .w32 (s.cfg.base + off) :: rest →
      step s = .next (responded s rest .busError)) ∧
    (s.pending = .write .w32 (s.cfg.base + off) v :: rest →
      step s = .next (responded s rest .busError))

/-- spec/20_memory.md R53: an aligned 32-bit write to a read-only register completes and is ignored, and a read of `CMD`
returns 0. -/
def Obligations.ReadOnlyRegistersIgnoreWrites : Prop :=
  ∀ (s : State) (off : Nat) (v : Word32) (rest : List Event), s.cfg.Legal →
    (off % 4 = 0 → ReadOnlyOffset s.cfg off → s.pending = .write .w32 (s.cfg.base + off) v :: rest →
      step s = .next (responded s rest .done)) ∧
    (s.pending = .read .w32 s.cfg.base :: rest →
      step s = .next (responded s rest (.data 0)))

/-- spec/20_memory.md R54: a 64-bit register is two words, the low one at the lower offset and the high one 4 above, and
a write to a half of `OPA`, `OPB` or `OPC` replaces that half and leaves the other; nothing else changes. -/
def Obligations.WideRegistersAreTwoWords : Prop :=
  (∀ (s : State) (off v : Nat) (rest : List Event), (off, v) ∈ wideValues s →
    s.pending = .read .w32 (s.cfg.base + off) :: rest →
      step s = .next (responded s rest (.data (BitVec.ofNat 32 v)))) ∧
  (∀ (s : State) (off : Nat) (v : Word32) (t : State) (rest : List Event),
    s.pending = .write .w32 (s.cfg.base + off) v :: rest →
    (off, t) ∈ operandWrites (responded s rest .done) v → step s = .next t)

/-- An aligned 32-bit read of `CMD`, `STATUS`, `MCOUNT`, `INFO` or a field of the frame and message registers returns the
word the address map gives it, and changes nothing (spec/20_memory.md §1, spec/10_state.md §4 to §6). -/
def Obligations.RegisterReadsGiveTheirWords : Prop :=
  ∀ (s : State) (off v : Nat) (rest : List Event), s.cfg.Legal → (off, v) ∈ narrowValues s →
    s.pending = .read .w32 (s.cfg.base + off) :: rest →
      step s = .next (responded s rest (.data (BitVec.ofNat 32 v)))

/-- spec/20_memory.md R62, spec/10_state.md R40: the word at `0x200 + 4k` is the view of slot k: the descriptor layout
with bit 31 = `V`, and 0 where `V` = 0. -/
def Obligations.SlotWindowGivesSlotViews : Prop :=
  ∀ (s : State) (k : Nat) (rest : List Event), s.cfg.Legal → k < s.cfg.nAcc →
    s.pending = .read .w32 (s.cfg.base + (0x200 + 4 * k)) :: rest →
      step s = .next (responded s rest (.data (BitVec.ofNat 32 (slotNumber (s.accAt k)))))

/-- spec/20_memory.md R61: word j of the `MBUF` window is the four message bytes from 4j on, the lowest-numbered most
significant, and byte 223, which does not exist, reads 0. -/
def Obligations.MbufWindowGivesMessageBytes : Prop :=
  ∀ (s : State) (j : Nat) (rest : List Event), j ≤ 55 →
    s.pending = .read .w32 (s.cfg.base + (0x100 + 4 * j)) :: rest →
      step s = .next (responded s rest (.data (BitVec.ofNat 32
        ((Memory.read s.mbuf (4 * j)).toNat * 2 ^ 24 + (Memory.read s.mbuf (4 * j + 1)).toNat * 2 ^ 16 +
          (Memory.read s.mbuf (4 * j + 2)).toNat * 2 ^ 8 +
          (if j = 55 then 0 else (Memory.read s.mbuf (4 * j + 3)).toNat)))))

/-- No read has a side effect, whatever its width and address: only the host's response log grows, and two reads with
no step between them return the same (spec/20_memory.md §1). -/
def Obligations.ReadsHaveNoSideEffects : Prop :=
  ∀ (s : State) (width : Width) (addr : Nat) (rest : List Event),
    s.pending = .read width addr :: .read width addr :: rest →
      ∃ r : BusResponse,
        step s = .next { s with pending := .read width addr :: rest, bus := s.bus ++ [r] } ∧
        Host.Core.run Sys2Proof.core 2 s = .next { s with pending := rest, bus := s.bus ++ [r, r] }

/-! ### What only certain steps change -/

/-- Only a host write to an operand half, or reset, changes an operand register (spec/10_state.md §3). -/
def Obligations.OperandsChangeOnlyByHostWrites : Prop :=
  ∀ (s t : State), step s = .next t → s.pending.head? ≠ some .reset →
    (∀ (off : Nat) (v : Word32), 0x008 ≤ off → off ≤ 0x01C →
      s.pending.head? ≠ some (.write .w32 (s.cfg.base + off) v)) →
      t.opa = s.opa ∧ t.opb = s.opb ∧ t.opc = s.opc

/-- Only `ACOMPILE k` and reset change accessor slots, and `ACOMPILE k` changes slot k alone (spec/10_state.md §7). -/
def Obligations.SlotsChangeOnlyByAcompile : Prop :=
  ∀ (s t : State), step s = .next t → s.pending.head? ≠ some .reset →
    t.acc = s.acc ∨
      ∃ (w : Word32) (k : Nat), s.pending.head? = some (.write .w32 s.cfg.base w) ∧ decode w = .instr (.acompile k) ∧
        ∀ j : Nat, j ≠ k → t.acc[j]? = s.acc[j]?

/-- spec/10_state.md R47: no step changes the configuration. -/
def Obligations.ConfigurationNeverChanges : Prop :=
  ∀ (s t : State), step s = .next t → t.cfg = s.cfg

/-- spec/10_state.md R46: the block only appends to `OUT`, and reset removes nothing. -/
def Obligations.OutOnlyGrows : Prop :=
  ∀ (s t : State), step s = .next t → s.out <+: t.out

/-! ### Host assembly -/

/-- `LI <X>, <imm64>` loads the whole operand register in two bus writes (spec/30_encoding.md §5). -/
def Obligations.LiLoadsOperandRegister : Prop :=
  ∀ (s : State) (x : OperandReg) (v : Word64) (rest : List Event),
    s.pending = programEvents s.cfg (liStmts x v) ++ rest →
      Host.Core.run Sys2Proof.core 2 s =
        .next { withOperand s x v with pending := rest, bus := s.bus ++ [.done, .done] }

end
end

