-- ==== Sys2Proof/Laws/Memory.lean ====
section
/-!
SUPPORT. What the byte-store operations do: a read after a write, the canonical form kept by every operation, the
bytes a copy leaves, and that canonical stores with equal bytes are equal.
-/

namespace Sys2Proof.Machine

theorem Memory.wf_nil : Memory.wf [] := by simp [Memory.wf]

theorem Memory.wf_cons {x : Nat} {v : Byte} {m : Memory} :
    Memory.wf ((x, v) :: m) ↔ (∀ c ∈ m, x < c.1) ∧ v ≠ 0 ∧ Memory.wf m := by
  simp only [Memory.wf, List.pairwise_cons, List.mem_cons, forall_eq_or_imp]
  tauto

theorem Memory.wf_tail {c : Host.Cell} {m : Memory} (h : Memory.wf (c :: m)) : Memory.wf m :=
  (Memory.wf_cons.1 h).2.2

@[simp] theorem Memory.read_nil (a : Nat) : Memory.read [] a = 0 := rfl

theorem Memory.read_cons (x : Nat) (v : Byte) (m : Memory) (a : Nat) :
    Memory.read ((x, v) :: m) a = if x = a then v else Memory.read m a := rfl

/-- A byte that no entry lists reads 0. -/
theorem Memory.read_of_forall_ne {m : Memory} {a : Nat} (h : ∀ c ∈ m, c.1 ≠ a) : Memory.read m a = 0 := by
  induction m with
  | nil => rfl
  | cons c m ih =>
    obtain ⟨x, v⟩ := c
    have hx : x ≠ a := h (x, v) (by simp)
    rw [Memory.read_cons, if_neg hx]
    exact ih fun c hc => h c (List.mem_cons_of_mem _ hc)

/-- A byte at or beyond the bound of the listed addresses reads 0. -/
theorem Memory.read_of_within {m : Memory} {cap a : Nat} (h : Memory.within cap m) (ha : cap ≤ a) :
    Memory.read m a = 0 :=
  Memory.read_of_forall_ne fun c hc => by have := h c hc; omega

theorem Memory.mem_write {m : Memory} {a : Nat} {b : Byte} {c : Host.Cell} (h : c ∈ Memory.write m a b) :
    c ∈ m ∨ (c = (a, b) ∧ b ≠ 0) := by
  induction m with
  | nil =>
    simp only [Memory.write] at h
    split at h <;> simp_all
  | cons d m ih =>
    obtain ⟨x, v⟩ := d
    simp only [Memory.write] at h
    split at h
    · split at h
      · exact .inl h
      · rcases List.mem_cons.1 h with h | h
        · exact .inr ⟨h, ‹_›⟩
        · exact .inl h
    · split at h
      · split at h
        · exact .inl (List.mem_cons_of_mem _ h)
        · rcases List.mem_cons.1 h with h | h
          · exact .inr ⟨h, ‹_›⟩
          · exact .inl (List.mem_cons_of_mem _ h)
      · rcases List.mem_cons.1 h with h | h
        · exact .inl (h ▸ List.mem_cons_self)
        · exact (ih h).imp (List.mem_cons_of_mem _) id

/-- A write keeps the canonical form. -/
theorem Memory.wf_write {m : Memory} (h : Memory.wf m) (a : Nat) (b : Byte) : Memory.wf (Memory.write m a b) := by
  induction m with
  | nil =>
    simp only [Memory.write]
    split
    · exact Memory.wf_nil
    · exact Memory.wf_cons.2 ⟨by simp, ‹_›, Memory.wf_nil⟩
  | cons d m ih =>
    obtain ⟨x, v⟩ := d
    have ⟨hlt, hv, hm⟩ := Memory.wf_cons.1 h
    simp only [Memory.write]
    split
    · split
      · exact h
      · refine Memory.wf_cons.2 ⟨fun c hc => ?_, ‹_›, h⟩
        rcases List.mem_cons.1 hc with rfl | hc
        · assumption
        · have := hlt c hc; omega
    · split
      · split
        · exact hm
        · refine Memory.wf_cons.2 ⟨fun c hc => ?_, ‹_›, hm⟩
          have := hlt c hc; omega
      · refine Memory.wf_cons.2 ⟨fun c hc => ?_, hv, ih hm⟩
        rcases Memory.mem_write hc with hc | ⟨rfl, -⟩
        · exact hlt c hc
        · show x < a
          omega

/-- A write below the bound keeps every listed address below it. -/
theorem Memory.within_write {m : Memory} {cap a : Nat} (h : Memory.within cap m) (ha : a < cap) (b : Byte) :
    Memory.within cap (Memory.write m a b) := fun c hc => by
  rcases Memory.mem_write hc with hc | ⟨rfl, -⟩
  · exact h c hc
  · exact ha

theorem Memory.within_mono {m : Memory} {k n : Nat} (h : Memory.within k m) (hkn : k ≤ n) : Memory.within n m :=
  fun c hc => (h c hc).trans_le hkn

/-- A read after a write: the byte written at its address, every other byte as it was. -/
theorem Memory.read_write {m : Memory} (h : Memory.wf m) (a : Nat) (b : Byte) (x : Nat) :
    Memory.read (Memory.write m a b) x = if x = a then b else Memory.read m x := by
  induction m with
  | nil =>
    simp only [Memory.write]
    split
    · split <;> simp_all
    · simp only [Memory.read_cons, Memory.read_nil, eq_comm]
  | cons d m ih =>
    obtain ⟨y, v⟩ := d
    have ⟨hlt, hv, hm⟩ := Memory.wf_cons.1 h
    have hgone : a ≤ y → Memory.read m a = 0 := fun hay =>
      Memory.read_of_forall_ne fun c hc => by have := hlt c hc; omega
    simp only [Memory.write]
    split
    · split
      · by_cases hx : x = a
        · subst hx
          rw [if_pos rfl, Memory.read_cons, if_neg (by omega), hgone (by omega)]
          exact Eq.symm ‹_›
        · rw [if_neg hx]
      · simp only [Memory.read_cons, eq_comm (a := a)]
    · split
      · subst y
        split
        · by_cases hx : x = a
          · subst hx
            rw [if_pos rfl, hgone le_rfl]
            exact Eq.symm ‹_›
          · rw [if_neg hx, Memory.read_cons, if_neg (Ne.symm hx)]
        · simp only [Memory.read_cons, eq_comm (a := a)]
          split <;> rfl
      · rw [Memory.read_cons, Memory.read_cons, ih hm]
        by_cases hx : y = x
        · rw [if_pos hx, if_pos hx, if_neg (by omega)]
        · rw [if_neg hx, if_neg hx]

/-! ### Copies -/

theorem Memory.wf_copyIn {m : Memory} (h : Memory.wf m) (cap start n : Nat) (f : Nat → Byte) :
    Memory.wf (Memory.copyIn cap m start n f) := by
  induction n with
  | zero => exact h
  | succ n ih =>
    simp only [Memory.copyIn]
    split
    · exact Memory.wf_write ih _ _
    · exact ih

theorem Memory.within_copyIn {m : Memory} {cap : Nat} (h : Memory.within cap m) (start n : Nat) (f : Nat → Byte) :
    Memory.within cap (Memory.copyIn cap m start n f) := by
  induction n with
  | zero => exact h
  | succ n ih =>
    simp only [Memory.copyIn]
    split
    · exact Memory.within_write ih ‹_› _
    · exact ih

/-- A copy of `n` bytes behind a store that ends at `start` ends at `start + n`. -/
theorem Memory.within_copyIn_end {m : Memory} {start : Nat} (h : Memory.within start m) (cap n : Nat)
    (f : Nat → Byte) : Memory.within (start + n) (Memory.copyIn cap m start n f) := by
  induction n with
  | zero => exact h
  | succ n ih =>
    have ih' := Memory.within_mono ih (show start + n ≤ start + (n + 1) by omega)
    simp only [Memory.copyIn]
    split
    · exact Memory.within_write ih' (by omega) _
    · exact ih'

/-- A copy gives its bytes and leaves every other. -/
theorem Memory.read_copyIn {m : Memory} (h : Memory.wf m) (cap start n : Nat) (f : Nat → Byte) (x : Nat) :
    Memory.read (Memory.copyIn cap m start n f) x =
      if start ≤ x ∧ x < start + n ∧ x < cap then f (x - start) else Memory.read m x := by
  induction n with
  | zero => rw [if_neg (by omega)]; rfl
  | succ n ih =>
    simp only [Memory.copyIn]
    by_cases hc : start + n < cap
    · rw [if_pos hc, Memory.read_write (Memory.wf_copyIn h ..), ih]
      by_cases hx : x = start + n
      · rw [if_pos hx, if_pos (by omega), hx, Nat.add_sub_cancel_left]
      · rw [if_neg hx]
        exact if_congr (by omega) rfl rfl
    · rw [if_neg hc, ih]
      exact if_congr (by omega) rfl rfl

theorem Memory.wf_tabulate (cap : Nat) (f : Nat → Byte) : Memory.wf (Memory.tabulate cap f) :=
  Memory.wf_copyIn Memory.wf_nil ..

theorem Memory.within_tabulate (cap : Nat) (f : Nat → Byte) : Memory.within cap (Memory.tabulate cap f) :=
  Memory.within_copyIn (m := []) (fun _ hc => absurd hc (List.not_mem_nil)) 0 cap f

/-- A tabulated store gives its bytes, and 0 beyond its capacity. -/
theorem Memory.read_tabulate (cap : Nat) (f : Nat → Byte) (x : Nat) :
    Memory.read (Memory.tabulate cap f) x = if x < cap then f x else 0 := by
  rw [Memory.tabulate, Memory.read_copyIn Memory.wf_nil]
  exact if_congr (by omega) rfl rfl

/-! ### Canonical form -/

/-- The entries of a canonical store are its bytes that are not 0. -/
theorem Memory.mem_iff_read {m : Memory} (h : Memory.wf m) (a : Nat) (b : Byte) :
    (a, b) ∈ m ↔ b ≠ 0 ∧ Memory.read m a = b := by
  induction m with
  | nil => simp only [List.not_mem_nil, Memory.read_nil, false_iff]; tauto
  | cons d m ih =>
    obtain ⟨y, v⟩ := d
    have ⟨hlt, hv, hm⟩ := Memory.wf_cons.1 h
    rw [List.mem_cons, ih hm, Memory.read_cons]
    by_cases hy : y = a
    · subst hy
      have : Memory.read m y = 0 := Memory.read_of_forall_ne fun c hc => by have := hlt c hc; omega
      rw [if_pos rfl, this]
      constructor
      · rintro (he | ⟨h1, h2⟩)
        · cases he; exact ⟨hv, rfl⟩
        · exact absurd h2.symm h1
      · rintro ⟨-, rfl⟩; exact .inl rfl
    · rw [if_neg hy, or_iff_right (fun he => hy (by cases he; rfl))]

/-- A listed byte at or beyond a bound would read other than 0: bytes that read 0 there bound the store. -/
theorem Memory.within_of_read {m : Memory} (h : Memory.wf m) {k : Nat} (h0 : ∀ i, k ≤ i → Memory.read m i = 0) :
    Memory.within k m := fun c hc => by
  obtain ⟨a, b⟩ := c
  obtain ⟨hb, hr⟩ := (Memory.mem_iff_read h a b).1 hc
  by_contra hk
  exact hb (hr.symm.trans (h0 a (by simpa using hk)))

/-- Canonical stores with equal bytes are equal. -/
theorem Memory.ext {m n : Memory} (hm : Memory.wf m) (hn : Memory.wf n)
    (h : ∀ a, Memory.read m a = Memory.read n a) : m = n := by
  have hmem : ∀ c : Host.Cell, c ∈ m ↔ c ∈ n := fun ⟨a, b⟩ => by
    rw [Memory.mem_iff_read hm, Memory.mem_iff_read hn, h]
  have nodup : ∀ {l : Memory}, Memory.wf l → l.Nodup := fun {l} hl =>
    List.Pairwise.imp (fun {c d} hcd heq => by rw [heq] at hcd; exact Nat.lt_irrefl _ hcd) hl.1
  refine List.Perm.eq_of_pairwise (le := fun c d => c.1 < d.1) ?_ hm.1 hn.1
    ((List.perm_ext_iff_of_nodup (nodup hm) (nodup hn)).2 hmem)
  intro c d _ _ hcd hdc
  exact absurd (hcd.trans hdc) (Nat.lt_irrefl _)

end Sys2Proof.Machine
end

