-- ==== Sys2Proof/Laws/State.lean ====
section
/-!
SUPPORT. One lemma per field per update of the state, each true by unfolding the update once, so that no later proof
unfolds a record update.
-/

namespace Sys2Proof.Machine

/-! ### State.writeRes -/

@[simp] theorem State.writeRes_cfg (s : State) (v : Word64) : (s.writeRes v).cfg = s.cfg := rfl
@[simp] theorem State.writeRes_opa (s : State) (v : Word64) : (s.writeRes v).opa = s.opa := rfl
@[simp] theorem State.writeRes_opb (s : State) (v : Word64) : (s.writeRes v).opb = s.opb := rfl
@[simp] theorem State.writeRes_opc (s : State) (v : Word64) : (s.writeRes v).opc = s.opc := rfl
@[simp] theorem State.writeRes_res (s : State) (v : Word64) : (s.writeRes v).res = v := rfl
@[simp] theorem State.writeRes_status (s : State) (v : Word64) : (s.writeRes v).status = s.status := rfl
@[simp] theorem State.writeRes_mcount (s : State) (v : Word64) : (s.writeRes v).mcount = s.mcount := rfl
@[simp] theorem State.writeRes_ftime (s : State) (v : Word64) : (s.writeRes v).ftime = s.ftime := rfl
@[simp] theorem State.writeRes_fid (s : State) (v : Word64) : (s.writeRes v).fid = s.fid := rfl
@[simp] theorem State.writeRes_fdlc (s : State) (v : Word64) : (s.writeRes v).fdlc = s.fdlc := rfl
@[simp] theorem State.writeRes_fdata (s : State) (v : Word64) : (s.writeRes v).fdata = s.fdata := rfl
@[simp] theorem State.writeRes_mtime (s : State) (v : Word64) : (s.writeRes v).mtime = s.mtime := rfl
@[simp] theorem State.writeRes_mid (s : State) (v : Word64) : (s.writeRes v).mid = s.mid := rfl
@[simp] theorem State.writeRes_mpgn (s : State) (v : Word64) : (s.writeRes v).mpgn = s.mpgn := rfl
@[simp] theorem State.writeRes_msa (s : State) (v : Word64) : (s.writeRes v).msa = s.msa := rfl
@[simp] theorem State.writeRes_mlen (s : State) (v : Word64) : (s.writeRes v).mlen = s.mlen := rfl
@[simp] theorem State.writeRes_mbuf (s : State) (v : Word64) : (s.writeRes v).mbuf = s.mbuf := rfl
@[simp] theorem State.writeRes_acc (s : State) (v : Word64) : (s.writeRes v).acc = s.acc := rfl
@[simp] theorem State.writeRes_fps (s : State) (v : Word64) : (s.writeRes v).fps = s.fps := rfl
@[simp] theorem State.writeRes_out (s : State) (v : Word64) : (s.writeRes v).out = s.out := rfl
@[simp] theorem State.writeRes_pending (s : State) (v : Word64) : (s.writeRes v).pending = s.pending := rfl
@[simp] theorem State.writeRes_bus (s : State) (v : Word64) : (s.writeRes v).bus = s.bus := rfl

/-! ### State.takeFault -/

@[simp] theorem State.takeFault_cfg (s : State) (code : FaultCode) (op : Byte) :
    (s.takeFault code op).cfg = s.cfg := rfl
@[simp] theorem State.takeFault_opa (s : State) (code : FaultCode) (op : Byte) :
    (s.takeFault code op).opa = s.opa := rfl
@[simp] theorem State.takeFault_opb (s : State) (code : FaultCode) (op : Byte) :
    (s.takeFault code op).opb = s.opb := rfl
@[simp] theorem State.takeFault_opc (s : State) (code : FaultCode) (op : Byte) :
    (s.takeFault code op).opc = s.opc := rfl
@[simp] theorem State.takeFault_res (s : State) (code : FaultCode) (op : Byte) :
    (s.takeFault code op).res = s.res := rfl
@[simp] theorem State.takeFault_status (s : State) (code : FaultCode) (op : Byte) :
    (s.takeFault code op).status = { fault := true, fcode := faultCodeByte code, fop := op } := rfl
@[simp] theorem State.takeFault_mcount (s : State) (code : FaultCode) (op : Byte) :
    (s.takeFault code op).mcount = s.mcount := rfl
@[simp] theorem State.takeFault_ftime (s : State) (code : FaultCode) (op : Byte) :
    (s.takeFault code op).ftime = s.ftime := rfl
@[simp] theorem State.takeFault_fid (s : State) (code : FaultCode) (op : Byte) :
    (s.takeFault code op).fid = s.fid := rfl
@[simp] theorem State.takeFault_fdlc (s : State) (code : FaultCode) (op : Byte) :
    (s.takeFault code op).fdlc = s.fdlc := rfl
@[simp] theorem State.takeFault_fdata (s : State) (code : FaultCode) (op : Byte) :
    (s.takeFault code op).fdata = s.fdata := rfl
@[simp] theorem State.takeFault_mtime (s : State) (code : FaultCode) (op : Byte) :
    (s.takeFault code op).mtime = s.mtime := rfl
@[simp] theorem State.takeFault_mid (s : State) (code : FaultCode) (op : Byte) :
    (s.takeFault code op).mid = s.mid := rfl
@[simp] theorem State.takeFault_mpgn (s : State) (code : FaultCode) (op : Byte) :
    (s.takeFault code op).mpgn = s.mpgn := rfl
@[simp] theorem State.takeFault_msa (s : State) (code : FaultCode) (op : Byte) :
    (s.takeFault code op).msa = s.msa := rfl
@[simp] theorem State.takeFault_mlen (s : State) (code : FaultCode) (op : Byte) :
    (s.takeFault code op).mlen = s.mlen := rfl
@[simp] theorem State.takeFault_mbuf (s : State) (code : FaultCode) (op : Byte) :
    (s.takeFault code op).mbuf = s.mbuf := rfl
@[simp] theorem State.takeFault_acc (s : State) (code : FaultCode) (op : Byte) :
    (s.takeFault code op).acc = s.acc := rfl
@[simp] theorem State.takeFault_fps (s : State) (code : FaultCode) (op : Byte) :
    (s.takeFault code op).fps = s.fps := rfl
@[simp] theorem State.takeFault_out (s : State) (code : FaultCode) (op : Byte) :
    (s.takeFault code op).out = s.out := rfl
@[simp] theorem State.takeFault_pending (s : State) (code : FaultCode) (op : Byte) :
    (s.takeFault code op).pending = s.pending := rfl
@[simp] theorem State.takeFault_bus (s : State) (code : FaultCode) (op : Byte) :
    (s.takeFault code op).bus = s.bus := rfl

/-! ### State.setAcc -/

@[simp] theorem State.setAcc_cfg (s : State) (k : Nat) (a : Accessor) : (s.setAcc k a).cfg = s.cfg := rfl
@[simp] theorem State.setAcc_opa (s : State) (k : Nat) (a : Accessor) : (s.setAcc k a).opa = s.opa := rfl
@[simp] theorem State.setAcc_opb (s : State) (k : Nat) (a : Accessor) : (s.setAcc k a).opb = s.opb := rfl
@[simp] theorem State.setAcc_opc (s : State) (k : Nat) (a : Accessor) : (s.setAcc k a).opc = s.opc := rfl
@[simp] theorem State.setAcc_res (s : State) (k : Nat) (a : Accessor) : (s.setAcc k a).res = s.res := rfl
@[simp] theorem State.setAcc_status (s : State) (k : Nat) (a : Accessor) : (s.setAcc k a).status = s.status := rfl
@[simp] theorem State.setAcc_mcount (s : State) (k : Nat) (a : Accessor) : (s.setAcc k a).mcount = s.mcount := rfl
@[simp] theorem State.setAcc_ftime (s : State) (k : Nat) (a : Accessor) : (s.setAcc k a).ftime = s.ftime := rfl
@[simp] theorem State.setAcc_fid (s : State) (k : Nat) (a : Accessor) : (s.setAcc k a).fid = s.fid := rfl
@[simp] theorem State.setAcc_fdlc (s : State) (k : Nat) (a : Accessor) : (s.setAcc k a).fdlc = s.fdlc := rfl
@[simp] theorem State.setAcc_fdata (s : State) (k : Nat) (a : Accessor) : (s.setAcc k a).fdata = s.fdata := rfl
@[simp] theorem State.setAcc_mtime (s : State) (k : Nat) (a : Accessor) : (s.setAcc k a).mtime = s.mtime := rfl
@[simp] theorem State.setAcc_mid (s : State) (k : Nat) (a : Accessor) : (s.setAcc k a).mid = s.mid := rfl
@[simp] theorem State.setAcc_mpgn (s : State) (k : Nat) (a : Accessor) : (s.setAcc k a).mpgn = s.mpgn := rfl
@[simp] theorem State.setAcc_msa (s : State) (k : Nat) (a : Accessor) : (s.setAcc k a).msa = s.msa := rfl
@[simp] theorem State.setAcc_mlen (s : State) (k : Nat) (a : Accessor) : (s.setAcc k a).mlen = s.mlen := rfl
@[simp] theorem State.setAcc_mbuf (s : State) (k : Nat) (a : Accessor) : (s.setAcc k a).mbuf = s.mbuf := rfl
@[simp] theorem State.setAcc_acc (s : State) (k : Nat) (a : Accessor) :
    (s.setAcc k a).acc = s.acc.set k (some a) := rfl
@[simp] theorem State.setAcc_fps (s : State) (k : Nat) (a : Accessor) : (s.setAcc k a).fps = s.fps := rfl
@[simp] theorem State.setAcc_out (s : State) (k : Nat) (a : Accessor) : (s.setAcc k a).out = s.out := rfl
@[simp] theorem State.setAcc_pending (s : State) (k : Nat) (a : Accessor) : (s.setAcc k a).pending = s.pending := rfl
@[simp] theorem State.setAcc_bus (s : State) (k : Nat) (a : Accessor) : (s.setAcc k a).bus = s.bus := rfl

/-! ### State.setFp -/

@[simp] theorem State.setFp_cfg (s : State) (i : Nat) (f : FpSlot) : (s.setFp i f).cfg = s.cfg := rfl
@[simp] theorem State.setFp_opa (s : State) (i : Nat) (f : FpSlot) : (s.setFp i f).opa = s.opa := rfl
@[simp] theorem State.setFp_opb (s : State) (i : Nat) (f : FpSlot) : (s.setFp i f).opb = s.opb := rfl
@[simp] theorem State.setFp_opc (s : State) (i : Nat) (f : FpSlot) : (s.setFp i f).opc = s.opc := rfl
@[simp] theorem State.setFp_res (s : State) (i : Nat) (f : FpSlot) : (s.setFp i f).res = s.res := rfl
@[simp] theorem State.setFp_status (s : State) (i : Nat) (f : FpSlot) : (s.setFp i f).status = s.status := rfl
@[simp] theorem State.setFp_mcount (s : State) (i : Nat) (f : FpSlot) : (s.setFp i f).mcount = s.mcount := rfl
@[simp] theorem State.setFp_ftime (s : State) (i : Nat) (f : FpSlot) : (s.setFp i f).ftime = s.ftime := rfl
@[simp] theorem State.setFp_fid (s : State) (i : Nat) (f : FpSlot) : (s.setFp i f).fid = s.fid := rfl
@[simp] theorem State.setFp_fdlc (s : State) (i : Nat) (f : FpSlot) : (s.setFp i f).fdlc = s.fdlc := rfl
@[simp] theorem State.setFp_fdata (s : State) (i : Nat) (f : FpSlot) : (s.setFp i f).fdata = s.fdata := rfl
@[simp] theorem State.setFp_mtime (s : State) (i : Nat) (f : FpSlot) : (s.setFp i f).mtime = s.mtime := rfl
@[simp] theorem State.setFp_mid (s : State) (i : Nat) (f : FpSlot) : (s.setFp i f).mid = s.mid := rfl
@[simp] theorem State.setFp_mpgn (s : State) (i : Nat) (f : FpSlot) : (s.setFp i f).mpgn = s.mpgn := rfl
@[simp] theorem State.setFp_msa (s : State) (i : Nat) (f : FpSlot) : (s.setFp i f).msa = s.msa := rfl
@[simp] theorem State.setFp_mlen (s : State) (i : Nat) (f : FpSlot) : (s.setFp i f).mlen = s.mlen := rfl
@[simp] theorem State.setFp_mbuf (s : State) (i : Nat) (f : FpSlot) : (s.setFp i f).mbuf = s.mbuf := rfl
@[simp] theorem State.setFp_acc (s : State) (i : Nat) (f : FpSlot) : (s.setFp i f).acc = s.acc := rfl
@[simp] theorem State.setFp_fps (s : State) (i : Nat) (f : FpSlot) : (s.setFp i f).fps = s.fps.set i (some f) := rfl
@[simp] theorem State.setFp_out (s : State) (i : Nat) (f : FpSlot) : (s.setFp i f).out = s.out := rfl
@[simp] theorem State.setFp_pending (s : State) (i : Nat) (f : FpSlot) : (s.setFp i f).pending = s.pending := rfl
@[simp] theorem State.setFp_bus (s : State) (i : Nat) (f : FpSlot) : (s.setFp i f).bus = s.bus := rfl

/-! ### State.freeFp -/

@[simp] theorem State.freeFp_cfg (s : State) (i : Nat) : (s.freeFp i).cfg = s.cfg := rfl
@[simp] theorem State.freeFp_opa (s : State) (i : Nat) : (s.freeFp i).opa = s.opa := rfl
@[simp] theorem State.freeFp_opb (s : State) (i : Nat) : (s.freeFp i).opb = s.opb := rfl
@[simp] theorem State.freeFp_opc (s : State) (i : Nat) : (s.freeFp i).opc = s.opc := rfl
@[simp] theorem State.freeFp_res (s : State) (i : Nat) : (s.freeFp i).res = s.res := rfl
@[simp] theorem State.freeFp_status (s : State) (i : Nat) : (s.freeFp i).status = s.status := rfl
@[simp] theorem State.freeFp_mcount (s : State) (i : Nat) : (s.freeFp i).mcount = s.mcount := rfl
@[simp] theorem State.freeFp_ftime (s : State) (i : Nat) : (s.freeFp i).ftime = s.ftime := rfl
@[simp] theorem State.freeFp_fid (s : State) (i : Nat) : (s.freeFp i).fid = s.fid := rfl
@[simp] theorem State.freeFp_fdlc (s : State) (i : Nat) : (s.freeFp i).fdlc = s.fdlc := rfl
@[simp] theorem State.freeFp_fdata (s : State) (i : Nat) : (s.freeFp i).fdata = s.fdata := rfl
@[simp] theorem State.freeFp_mtime (s : State) (i : Nat) : (s.freeFp i).mtime = s.mtime := rfl
@[simp] theorem State.freeFp_mid (s : State) (i : Nat) : (s.freeFp i).mid = s.mid := rfl
@[simp] theorem State.freeFp_mpgn (s : State) (i : Nat) : (s.freeFp i).mpgn = s.mpgn := rfl
@[simp] theorem State.freeFp_msa (s : State) (i : Nat) : (s.freeFp i).msa = s.msa := rfl
@[simp] theorem State.freeFp_mlen (s : State) (i : Nat) : (s.freeFp i).mlen = s.mlen := rfl
@[simp] theorem State.freeFp_mbuf (s : State) (i : Nat) : (s.freeFp i).mbuf = s.mbuf := rfl
@[simp] theorem State.freeFp_acc (s : State) (i : Nat) : (s.freeFp i).acc = s.acc := rfl
@[simp] theorem State.freeFp_fps (s : State) (i : Nat) : (s.freeFp i).fps = s.fps.set i none := rfl
@[simp] theorem State.freeFp_out (s : State) (i : Nat) : (s.freeFp i).out = s.out := rfl
@[simp] theorem State.freeFp_pending (s : State) (i : Nat) : (s.freeFp i).pending = s.pending := rfl
@[simp] theorem State.freeFp_bus (s : State) (i : Nat) : (s.freeFp i).bus = s.bus := rfl

/-! ### State.respond -/

@[simp] theorem State.respond_cfg (s : State) (r : BusResponse) : (s.respond r).cfg = s.cfg := rfl
@[simp] theorem State.respond_opa (s : State) (r : BusResponse) : (s.respond r).opa = s.opa := rfl
@[simp] theorem State.respond_opb (s : State) (r : BusResponse) : (s.respond r).opb = s.opb := rfl
@[simp] theorem State.respond_opc (s : State) (r : BusResponse) : (s.respond r).opc = s.opc := rfl
@[simp] theorem State.respond_res (s : State) (r : BusResponse) : (s.respond r).res = s.res := rfl
@[simp] theorem State.respond_status (s : State) (r : BusResponse) : (s.respond r).status = s.status := rfl
@[simp] theorem State.respond_mcount (s : State) (r : BusResponse) : (s.respond r).mcount = s.mcount := rfl
@[simp] theorem State.respond_ftime (s : State) (r : BusResponse) : (s.respond r).ftime = s.ftime := rfl
@[simp] theorem State.respond_fid (s : State) (r : BusResponse) : (s.respond r).fid = s.fid := rfl
@[simp] theorem State.respond_fdlc (s : State) (r : BusResponse) : (s.respond r).fdlc = s.fdlc := rfl
@[simp] theorem State.respond_fdata (s : State) (r : BusResponse) : (s.respond r).fdata = s.fdata := rfl
@[simp] theorem State.respond_mtime (s : State) (r : BusResponse) : (s.respond r).mtime = s.mtime := rfl
@[simp] theorem State.respond_mid (s : State) (r : BusResponse) : (s.respond r).mid = s.mid := rfl
@[simp] theorem State.respond_mpgn (s : State) (r : BusResponse) : (s.respond r).mpgn = s.mpgn := rfl
@[simp] theorem State.respond_msa (s : State) (r : BusResponse) : (s.respond r).msa = s.msa := rfl
@[simp] theorem State.respond_mlen (s : State) (r : BusResponse) : (s.respond r).mlen = s.mlen := rfl
@[simp] theorem State.respond_mbuf (s : State) (r : BusResponse) : (s.respond r).mbuf = s.mbuf := rfl
@[simp] theorem State.respond_acc (s : State) (r : BusResponse) : (s.respond r).acc = s.acc := rfl
@[simp] theorem State.respond_fps (s : State) (r : BusResponse) : (s.respond r).fps = s.fps := rfl
@[simp] theorem State.respond_out (s : State) (r : BusResponse) : (s.respond r).out = s.out := rfl
@[simp] theorem State.respond_pending (s : State) (r : BusResponse) : (s.respond r).pending = s.pending := rfl
@[simp] theorem State.respond_bus (s : State) (r : BusResponse) : (s.respond r).bus = s.bus ++ [r] := rfl

/-! ### latchFrame -/

@[simp] theorem latchFrame_cfg (s : State) (t : Word64) (id : Word32) (n : Nat) (w : Word64) :
    (latchFrame s t id n w).cfg = s.cfg := rfl
@[simp] theorem latchFrame_opa (s : State) (t : Word64) (id : Word32) (n : Nat) (w : Word64) :
    (latchFrame s t id n w).opa = s.opa := rfl
@[simp] theorem latchFrame_opb (s : State) (t : Word64) (id : Word32) (n : Nat) (w : Word64) :
    (latchFrame s t id n w).opb = s.opb := rfl
@[simp] theorem latchFrame_opc (s : State) (t : Word64) (id : Word32) (n : Nat) (w : Word64) :
    (latchFrame s t id n w).opc = s.opc := rfl
@[simp] theorem latchFrame_res (s : State) (t : Word64) (id : Word32) (n : Nat) (w : Word64) :
    (latchFrame s t id n w).res = s.res := rfl
@[simp] theorem latchFrame_status (s : State) (t : Word64) (id : Word32) (n : Nat) (w : Word64) :
    (latchFrame s t id n w).status = s.status := rfl
@[simp] theorem latchFrame_mcount (s : State) (t : Word64) (id : Word32) (n : Nat) (w : Word64) :
    (latchFrame s t id n w).mcount = s.mcount := rfl
@[simp] theorem latchFrame_ftime (s : State) (t : Word64) (id : Word32) (n : Nat) (w : Word64) :
    (latchFrame s t id n w).ftime = t := rfl
@[simp] theorem latchFrame_fid (s : State) (t : Word64) (id : Word32) (n : Nat) (w : Word64) :
    (latchFrame s t id n w).fid = id := rfl
@[simp] theorem latchFrame_fdlc (s : State) (t : Word64) (id : Word32) (n : Nat) (w : Word64) :
    (latchFrame s t id n w).fdlc = BitVec.ofNat 4 n := rfl
@[simp] theorem latchFrame_fdata (s : State) (t : Word64) (id : Word32) (n : Nat) (w : Word64) :
    (latchFrame s t id n w).fdata = latchedData n w := rfl
@[simp] theorem latchFrame_mtime (s : State) (t : Word64) (id : Word32) (n : Nat) (w : Word64) :
    (latchFrame s t id n w).mtime = s.mtime := rfl
@[simp] theorem latchFrame_mid (s : State) (t : Word64) (id : Word32) (n : Nat) (w : Word64) :
    (latchFrame s t id n w).mid = s.mid := rfl
@[simp] theorem latchFrame_mpgn (s : State) (t : Word64) (id : Word32) (n : Nat) (w : Word64) :
    (latchFrame s t id n w).mpgn = s.mpgn := rfl
@[simp] theorem latchFrame_msa (s : State) (t : Word64) (id : Word32) (n : Nat) (w : Word64) :
    (latchFrame s t id n w).msa = s.msa := rfl
@[simp] theorem latchFrame_mlen (s : State) (t : Word64) (id : Word32) (n : Nat) (w : Word64) :
    (latchFrame s t id n w).mlen = s.mlen := rfl
@[simp] theorem latchFrame_mbuf (s : State) (t : Word64) (id : Word32) (n : Nat) (w : Word64) :
    (latchFrame s t id n w).mbuf = s.mbuf := rfl
@[simp] theorem latchFrame_acc (s : State) (t : Word64) (id : Word32) (n : Nat) (w : Word64) :
    (latchFrame s t id n w).acc = s.acc := rfl
@[simp] theorem latchFrame_fps (s : State) (t : Word64) (id : Word32) (n : Nat) (w : Word64) :
    (latchFrame s t id n w).fps = s.fps := rfl
@[simp] theorem latchFrame_out (s : State) (t : Word64) (id : Word32) (n : Nat) (w : Word64) :
    (latchFrame s t id n w).out = s.out := rfl
@[simp] theorem latchFrame_pending (s : State) (t : Word64) (id : Word32) (n : Nat) (w : Word64) :
    (latchFrame s t id n w).pending = s.pending := rfl
@[simp] theorem latchFrame_bus (s : State) (t : Word64) (id : Word32) (n : Nat) (w : Word64) :
    (latchFrame s t id n w).bus = s.bus := rfl

/-! ### complete -/

@[simp] theorem complete_cfg (s : State) (i : Nat) (f : FpSlot) : (complete s i f).cfg = s.cfg := rfl
@[simp] theorem complete_opa (s : State) (i : Nat) (f : FpSlot) : (complete s i f).opa = s.opa := rfl
@[simp] theorem complete_opb (s : State) (i : Nat) (f : FpSlot) : (complete s i f).opb = s.opb := rfl
@[simp] theorem complete_opc (s : State) (i : Nat) (f : FpSlot) : (complete s i f).opc = s.opc := rfl
@[simp] theorem complete_res (s : State) (i : Nat) (f : FpSlot) : (complete s i f).res = s.res := rfl
@[simp] theorem complete_status (s : State) (i : Nat) (f : FpSlot) : (complete s i f).status = s.status := rfl
@[simp] theorem complete_mcount (s : State) (i : Nat) (f : FpSlot) : (complete s i f).mcount = s.mcount + 1 := rfl
@[simp] theorem complete_ftime (s : State) (i : Nat) (f : FpSlot) : (complete s i f).ftime = s.ftime := rfl
@[simp] theorem complete_fid (s : State) (i : Nat) (f : FpSlot) : (complete s i f).fid = s.fid := rfl
@[simp] theorem complete_fdlc (s : State) (i : Nat) (f : FpSlot) : (complete s i f).fdlc = s.fdlc := rfl
@[simp] theorem complete_fdata (s : State) (i : Nat) (f : FpSlot) : (complete s i f).fdata = s.fdata := rfl
@[simp] theorem complete_mtime (s : State) (i : Nat) (f : FpSlot) : (complete s i f).mtime = s.ftime := rfl
@[simp] theorem complete_mid (s : State) (i : Nat) (f : FpSlot) : (complete s i f).mid = s.fid := rfl
@[simp] theorem complete_mpgn (s : State) (i : Nat) (f : FpSlot) : (complete s i f).mpgn = f.pgn := rfl
@[simp] theorem complete_msa (s : State) (i : Nat) (f : FpSlot) : (complete s i f).msa = f.sa := rfl
@[simp] theorem complete_mlen (s : State) (i : Nat) (f : FpSlot) : (complete s i f).mlen = f.total := rfl
@[simp] theorem complete_mbuf (s : State) (i : Nat) (f : FpSlot) :
    (complete s i f).mbuf = completedBuf f := by
  rw [complete]
@[simp] theorem complete_acc (s : State) (i : Nat) (f : FpSlot) : (complete s i f).acc = s.acc := rfl
@[simp] theorem complete_fps (s : State) (i : Nat) (f : FpSlot) : (complete s i f).fps = s.fps.set i none := rfl
@[simp] theorem complete_out (s : State) (i : Nat) (f : FpSlot) :
    (complete s i f).out = s.out ++ [s.completionMsg f] := rfl
@[simp] theorem complete_pending (s : State) (i : Nat) (f : FpSlot) : (complete s i f).pending = s.pending := rfl
@[simp] theorem complete_bus (s : State) (i : Nat) (f : FpSlot) : (complete s i f).bus = s.bus := rfl

/-- A completion changes the message register, the counter, `OUT` and the table, and nothing else. -/
theorem complete_eq_update (s : State) (i : Nat) (f : FpSlot) :
    complete s i f =
      { s with
        mtime := (complete s i f).mtime
        mid := (complete s i f).mid
        mpgn := (complete s i f).mpgn
        msa := (complete s i f).msa
        mlen := (complete s i f).mlen
        mbuf := (complete s i f).mbuf
        mcount := s.mcount + 1
        out := s.out ++ [s.completionMsg f]
        fps := (complete s i f).fps } := by
  simp only [complete]

/-! ### State.applyReset -/

@[simp] theorem State.applyReset_cfg (s : State) : s.applyReset.cfg = s.cfg := rfl
@[simp] theorem State.applyReset_opa (s : State) : s.applyReset.opa = (State.resetOf s.cfg).opa := rfl
@[simp] theorem State.applyReset_opb (s : State) : s.applyReset.opb = (State.resetOf s.cfg).opb := rfl
@[simp] theorem State.applyReset_opc (s : State) : s.applyReset.opc = (State.resetOf s.cfg).opc := rfl
@[simp] theorem State.applyReset_res (s : State) : s.applyReset.res = (State.resetOf s.cfg).res := rfl
@[simp] theorem State.applyReset_status (s : State) : s.applyReset.status = (State.resetOf s.cfg).status := rfl
@[simp] theorem State.applyReset_mcount (s : State) : s.applyReset.mcount = (State.resetOf s.cfg).mcount := rfl
@[simp] theorem State.applyReset_ftime (s : State) : s.applyReset.ftime = (State.resetOf s.cfg).ftime := rfl
@[simp] theorem State.applyReset_fid (s : State) : s.applyReset.fid = (State.resetOf s.cfg).fid := rfl
@[simp] theorem State.applyReset_fdlc (s : State) : s.applyReset.fdlc = (State.resetOf s.cfg).fdlc := rfl
@[simp] theorem State.applyReset_fdata (s : State) : s.applyReset.fdata = (State.resetOf s.cfg).fdata := rfl
@[simp] theorem State.applyReset_mtime (s : State) : s.applyReset.mtime = (State.resetOf s.cfg).mtime := rfl
@[simp] theorem State.applyReset_mid (s : State) : s.applyReset.mid = (State.resetOf s.cfg).mid := rfl
@[simp] theorem State.applyReset_mpgn (s : State) : s.applyReset.mpgn = (State.resetOf s.cfg).mpgn := rfl
@[simp] theorem State.applyReset_msa (s : State) : s.applyReset.msa = (State.resetOf s.cfg).msa := rfl
@[simp] theorem State.applyReset_mlen (s : State) : s.applyReset.mlen = (State.resetOf s.cfg).mlen := rfl
@[simp] theorem State.applyReset_mbuf (s : State) : s.applyReset.mbuf = (State.resetOf s.cfg).mbuf := rfl
@[simp] theorem State.applyReset_acc (s : State) : s.applyReset.acc = (State.resetOf s.cfg).acc := rfl
@[simp] theorem State.applyReset_fps (s : State) : s.applyReset.fps = (State.resetOf s.cfg).fps := rfl
@[simp] theorem State.applyReset_out (s : State) : s.applyReset.out = s.out := rfl
@[simp] theorem State.applyReset_pending (s : State) : s.applyReset.pending = s.pending := rfl
@[simp] theorem State.applyReset_bus (s : State) : s.applyReset.bus = s.bus := rfl

end Sys2Proof.Machine
end

