-- ==== Sys2Proof/Laws/Ops.lean ====
section
/-!
SUPPORT. What the shared operations can do: a command while the block runs and while it is halted, every command and
every command word, the register window, and one step of the machine.
-/

namespace Sys2Proof.Machine

/-! ### Commands -/

theorem whenRunning_of_running {s : State} (h : s.status.fault = false) (k : State → State) :
    whenRunning s k = .next (k s) := by simp [whenRunning, State.halted, h]

theorem whenRunning_of_halted {s : State} (h : s.status.fault = true) (k : State → State) :
    whenRunning s k = .next s := by simp [whenRunning, State.halted, h]

/-- A command answers one next state: the state itself while halted, its effect while running. -/
theorem whenRunning_eq_next {s t : State} {k : State → State} :
    whenRunning s k = .next t ↔ t = if s.status.fault then s else k s := by
  simp only [whenRunning, State.halted, Host.Outcome.next.injEq, eq_comm]

/-- What `ACOMPILE` can do while the block runs. -/
theorem compileSlot_cases (s : State) (k : Nat) (d : Word32) (op : Byte) :
    (s.cfg.nAcc ≤ k ∧ compileSlot s k d op = s.takeFault .badSlot op) ∨
    (k < s.cfg.nAcc ∧ compileDescriptor d = none ∧ compileSlot s k d op = s.takeFault .badDescriptor op) ∨
    (k < s.cfg.nAcc ∧ ∃ a, compileDescriptor d = some a ∧ compileSlot s k d op = s.setAcc k a) := by
  unfold compileSlot
  by_cases hk : s.cfg.nAcc ≤ k
  · exact .inl ⟨hk, if_pos hk⟩
  · rw [if_neg hk]
    cases hd : compileDescriptor d with
    | none => exact .inr (.inl ⟨by omega, rfl, rfl⟩)
    | some a => exact .inr (.inr ⟨by omega, a, rfl, rfl⟩)

/-- What `ACALL` can do while the block runs. -/
theorem callSlot_cases (s : State) (k : Nat) (op : Byte) :
    (s.cfg.nAcc ≤ k ∧ callSlot s k op = s.takeFault .badSlot op) ∨
    (k < s.cfg.nAcc ∧ s.accAt k = none ∧ callSlot s k op = s.takeFault .slotEmpty op) ∨
    (k < s.cfg.nAcc ∧ ∃ a, s.accAt k = some a ∧ 8 * s.sourceLen a.src < a.start.toNat + a.len.toNat ∧
      callSlot s k op = s.takeFault .range op) ∨
    (k < s.cfg.nAcc ∧ ∃ a, s.accAt k = some a ∧ a.start.toNat + a.len.toNat ≤ 8 * s.sourceLen a.src ∧
      callSlot s k op = s.writeRes (s.accessorValue a)) := by
  unfold callSlot
  by_cases hk : s.cfg.nAcc ≤ k
  · exact .inl ⟨hk, if_pos hk⟩
  · rw [if_neg hk]
    refine .inr ?_
    cases ha : s.accAt k with
    | none => exact .inl ⟨by omega, rfl, rfl⟩
    | some a =>
      by_cases hr : 8 * s.sourceLen a.src < a.start.toNat + a.len.toNat
      · exact .inr (.inl ⟨by omega, a, rfl, hr, if_pos hr⟩)
      · exact .inr (.inr ⟨by omega, a, rfl, by omega, if_neg hr⟩)

/-- What `FRAME_IN` can do while the block runs. -/
theorem hostFrame_cases (s : State) (n : Nat) (op : Byte) :
    (8 < n ∧ hostFrame s n op = s.takeFault .badDlc op) ∨
    (n ≤ 8 ∧ hostFrame s n op = frameArrive s s.opc (low32 s.opa) n s.opb) := by
  unfold hostFrame
  by_cases h : 8 < n
  · exact .inl ⟨h, if_pos h⟩
  · exact .inr ⟨by omega, if_neg h⟩

/-- The effects a command word can have on a running block: a fault, a result, a compiled slot, or a frame. -/
inductive Effect (s : State) (w : Word32) : State → Prop where
  | fault (code : FaultCode) : Effect s w (s.takeFault code (opcodeField w))
  | result (v : Word64) : Effect s w (s.writeRes v)
  | slot (k : Nat) (a : Accessor) (hw : decode w = .instr (.acompile k)) (hk : k < s.cfg.nAcc)
      (ha : compileDescriptor (low32 s.opa) = some a) : Effect s w (s.setAcc k a)
  | frame (n : Nat) (hn : n ≤ 8) : Effect s w (frameArrive s s.opc (low32 s.opa) n s.opb)

/-- The opcode field of a word is the opcode of the command it decodes to. -/
theorem opcodeField_of_decode {w : Word32} {i : Instr} (h : decode w = .instr i) : opcodeField w = opcodeOf i := by
  unfold decode at h
  split at h <;> try (simp only [formatZ, formatS, formatF] at h; split at h <;> cases h)
  all_goals first
    | cases h
    | exact BitVec.eq_of_toNat_eq (by rw [‹(opcodeField w).toNat = _›]; rfl)

/-- Executing a command word: nothing while halted, else one of its effects. -/
theorem execWord_cases {s t : State} {w : Word32} (h : execWord w s = .next t) :
    (s.status.fault = true ∧ t = s) ∨ (s.status.fault = false ∧ Effect s w t) := by
  cases hf : s.status.fault with
  | true =>
    refine .inl ⟨rfl, ?_⟩
    unfold execWord at h
    split at h
    · rename_i i _
      cases i <;>
        simp only [exec, execSa, execPs, execPf, execDp, execEdp, execPrio, execPgn, execCanid, execSamepgn,
          execAcompile, execAcall, execFrameIn, whenRunning_of_halted hf, Host.Outcome.next.injEq] at h <;>
        exact h.symm
    · rw [whenRunning_of_halted hf] at h
      cases h; rfl
  | false =>
    refine .inr ⟨rfl, ?_⟩
    unfold execWord at h
    split at h
    · rename_i i hi
      have ho := opcodeField_of_decode hi
      cases i <;>
        simp only [exec, execSa, execPs, execPf, execDp, execEdp, execPrio, execPgn, execCanid, execSamepgn,
          execAcompile, execAcall, execFrameIn, whenRunning_of_running hf, Host.Outcome.next.injEq] at h <;>
        first | exact h ▸ .result _ | skip
      case acompile k =>
        rcases compileSlot_cases s k (low32 s.opa) (opcodeOf (.acompile k)) with
          ⟨_, e⟩ | ⟨_, _, e⟩ | ⟨hk, a, ha, e⟩ <;> rw [e] at h <;> subst h
        · exact ho ▸ .fault _
        · exact ho ▸ .fault _
        · exact .slot k a hi hk ha
      case acall k =>
        rcases callSlot_cases s k (opcodeOf (.acall k)) with
          ⟨_, e⟩ | ⟨_, _, e⟩ | ⟨_, a, _, _, e⟩ | ⟨_, a, _, _, e⟩ <;> rw [e] at h <;> subst h
        · exact ho ▸ .fault _
        · exact ho ▸ .fault _
        · exact ho ▸ .fault _
        · exact .result _
      case frameIn n =>
        rcases hostFrame_cases s n (opcodeOf (.frameIn n)) with ⟨_, e⟩ | ⟨hn, e⟩ <;> rw [e] at h <;> subst h
        · exact ho ▸ .fault _
        · exact .frame n hn
    · rw [whenRunning_of_running hf] at h
      cases h
      exact .fault _

/-! ### The register window -/

/-- An access at an offset of the window. -/
theorem regAtAccess_offset (c : Config) (width : Width) (off : Nat) :
    regAtAccess c width (c.base + off) = if width = .w32 ∧ off % 4 = 0 then regAtOffset c off else none := by
  simp only [regAtAccess, Nat.add_sub_cancel_left, Nat.le_add_right, true_and]

/-- The command register stands at the window's base. -/
theorem regAtAccess_cmd (c : Config) : regAtAccess c .w32 c.base = some .cmd := by
  have := regAtAccess_offset c .w32 0
  rw [Nat.add_zero] at this
  rw [this]
  rfl

/-- Only a 32-bit access at the window's base reaches the command register. -/
theorem eq_base_of_regAtAccess_cmd {c : Config} {width : Width} {addr : Nat}
    (h : regAtAccess c width addr = some .cmd) : width = .w32 ∧ addr = c.base := by
  unfold regAtAccess at h
  split at h
  · rename_i hc
    refine ⟨hc.1, ?_⟩
    suffices addr - c.base = 0 by omega
    generalize addr - c.base = off at h
    unfold regAtOffset at h
    split at h
    · cases h
    · split at h
      · cases h
      · by_contra hne
        simp only [namedOffsets, List.cons_append, List.nil_append, List.lookup, beq_eq_false_iff_ne.2 hne] at h
        repeat' split at h
        all_goals cases h
  · cases h

/-- A read that reaches a register returns its word and changes nothing else. -/
theorem hostRead_of_reg {s : State} {width : Width} {addr : Nat} {r : MmioReg}
    (h : regAtAccess s.cfg width addr = some r) : hostRead s width addr = s.respond (.data (readReg s r)) := by
  simp only [hostRead, h]

/-- A write of a word to `CMD` executes it. -/
theorem hostWrite_cmd (s : State) (w : Word32) :
    hostWrite s .w32 s.cfg.base w = execWord w (s.respond .done) := by
  simp only [hostWrite, regAtAccess_cmd]

/-- What a write to a register other than `CMD` can change: an operand register. -/
theorem writeReg_eq (s : State) (r : MmioReg) (v : Word32) :
    writeReg s r v =
      { s with opa := (writeReg s r v).opa, opb := (writeReg s r v).opb, opc := (writeReg s r v).opc } := by
  cases r <;> rfl

/-! ### One step -/

theorem step_nil {s : State} (h : s.pending = []) : step s = .next s := by
  simp only [step, nextStep, h]

theorem step_cons {s : State} {e : Event} {rest : List Event} (h : s.pending = e :: rest) :
    step s = takeEvent e { s with pending := rest } := by
  simp only [step, nextStep, h]

theorem step_read {s : State} {width : Width} {addr : Nat} {rest : List Event}
    (h : s.pending = .read width addr :: rest) : step s = .next (hostRead { s with pending := rest } width addr) :=
  step_cons h

theorem step_write {s : State} {width : Width} {addr : Nat} {v : Word32} {rest : List Event}
    (h : s.pending = .write width addr v :: rest) : step s = hostWrite { s with pending := rest } width addr v :=
  step_cons h

theorem step_frame {s : State} {f : PortFrame} {rest : List Event} (h : s.pending = .frame f :: rest) :
    step s = .next (portArrive { s with pending := rest } f) :=
  step_cons h

theorem step_reset {s : State} {rest : List Event} (h : s.pending = .reset :: rest) :
    step s = .next { s with pending := rest }.applyReset :=
  step_cons h

theorem step_command {s : State} {w : Word32} {rest : List Event}
    (h : s.pending = .write .w32 s.cfg.base w :: rest) :
    step s = execWord w ({ s with pending := rest }.respond .done) :=
  (step_write h).trans (hostWrite_cmd { s with pending := rest } w)

/-- Everything a step can do. -/
theorem step_cases {s t : State} (h : step s = .next t) :
    (s.pending = [] ∧ t = s) ∨
    ∃ rest : List Event,
      (∃ width addr r, s.pending = .read width addr :: rest ∧ t = { s with pending := rest }.respond r) ∨
      (∃ width addr v, s.pending = .write width addr v :: rest ∧ regAtAccess s.cfg width addr = none ∧
        t = { s with pending := rest }.respond .busError) ∨
      (∃ width addr v, s.pending = .write width addr v :: rest ∧ regAtAccess s.cfg width addr = some .cmd ∧
        execWord v ({ s with pending := rest }.respond .done) = .next t) ∨
      (∃ width addr v r, s.pending = .write width addr v :: rest ∧ regAtAccess s.cfg width addr = some r ∧
        r ≠ .cmd ∧ t = writeReg ({ s with pending := rest }.respond .done) r v) ∨
      (∃ f, s.pending = .frame f :: rest ∧ t = portArrive { s with pending := rest } f) ∨
      (s.pending = .reset :: rest ∧ t = { s with pending := rest }.applyReset) := by
  cases hp : s.pending with
  | nil => rw [step_nil hp] at h; cases h; exact .inl ⟨rfl, rfl⟩
  | cons e rest =>
    refine .inr ⟨rest, ?_⟩
    cases e with
    | read width addr =>
      rw [step_read hp] at h
      cases h
      unfold hostRead
      split
      · exact .inl ⟨width, addr, _, rfl, rfl⟩
      · exact .inl ⟨width, addr, _, rfl, rfl⟩
    | write width addr v =>
      rw [step_write hp] at h
      unfold hostWrite at h
      split at h
      · rename_i hr
        cases h
        exact .inr (.inl ⟨width, addr, v, rfl, hr, rfl⟩)
      · rename_i hr
        exact .inr (.inr (.inl ⟨width, addr, v, rfl, hr, h⟩))
      · rename_i r hne hr
        cases h
        exact .inr (.inr (.inr (.inl ⟨width, addr, v, r, rfl, hr, fun e => hne (e ▸ rfl), rfl⟩)))
    | frame f =>
      rw [step_frame hp] at h
      cases h
      exact .inr (.inr (.inr (.inr (.inl ⟨f, rfl, rfl⟩))))
    | reset =>
      rw [step_reset hp] at h
      cases h
      exact .inr (.inr (.inr (.inr (.inr ⟨rfl, rfl⟩))))

end Sys2Proof.Machine
end

