-- ==== Sys2Proof/Laws/FastPacket.lean ====
section
/-!
SUPPORT. What the reassembly operations do: the lookup of a key after a slot changes, everything one reassembly step
can do, the slots it stores, and frame arrival.
-/

namespace Sys2Proof.Machine

/-! ### Finding an entry after one entry changes -/

section Find
variable {α : Type} {P : α → Bool} {l : List α} {i : Nat} {x y : α}

/-- Replacing an entry that is not sought by one that is not sought changes no search. -/
theorem find?_set_of_not (hy : l[i]? = some y) (hPy : P y = false) (hPx : P x = false) :
    (l.set i x).find? P = l.find? P := by
  induction l generalizing i with
  | nil => rfl
  | cons z l ih =>
    cases i with
    | zero =>
      obtain rfl : z = y := by simpa using hy
      simp only [List.set_cons_zero, List.find?_cons, hPx, hPy]
    | succ i =>
      simp only [List.set_cons_succ, List.find?_cons]
      rw [ih (by simpa using hy)]

/-- The first entry sought, once written, is found. -/
theorem find?_set_self (hi : i < l.length) (hPx : P x = true) (hlt : ∀ j z, j < i → l[j]? = some z → P z = false) :
    (l.set i x).find? P = some x := by
  induction l generalizing i with
  | nil => exact absurd hi (by simp)
  | cons z l ih =>
    cases i with
    | zero => simp only [List.set_cons_zero, List.find?_cons, hPx]
    | succ i =>
      have hz : P z = false := hlt 0 z (by omega) rfl
      simp only [List.set_cons_succ, List.find?_cons, hz]
      exact ih (by simpa using hi) fun j w hj hw => hlt (j + 1) w (by omega) (by simpa using hw)

/-- Nothing is found where the written entry is not sought and no other is. -/
theorem find?_set_none (hPx : P x = false) (hne : ∀ j z, j ≠ i → l[j]? = some z → P z = false) :
    (l.set i x).find? P = none := by
  induction l generalizing i with
  | nil => rfl
  | cons z l ih =>
    cases i with
    | zero =>
      simp only [List.set_cons_zero, List.find?_cons, hPx]
      refine List.find?_eq_none.2 fun w hw => ?_
      obtain ⟨j, hj⟩ := List.mem_iff_getElem?.1 hw
      rw [hne (j + 1) w (by omega) (by simpa using hj)]
      exact Bool.false_ne_true
    | succ i =>
      have hz : P z = false := hne 0 z (by omega) rfl
      simp only [List.set_cons_succ, List.find?_cons, hz]
      exact ih fun j w hj hw => hne (j + 1) w (by omega) (by simpa using hw)

end Find

/-! ### Keys and slots -/

@[simp] theorem FpSlot.hasKey_none (p : PgnValue) (a : Byte) : FpSlot.hasKey p a none = false := rfl

theorem FpSlot.hasKey_some {p : PgnValue} {a : Byte} {f : FpSlot} :
    FpSlot.hasKey p a (some f) = true ↔ f.pgn = p ∧ f.sa = a := by
  simp only [FpSlot.hasKey, Bool.and_eq_true, beq_iff_eq]

/-- Two keys in one entry are one key. -/
theorem FpSlot.hasKey_other {p q : PgnValue} {a b : Byte} {e : Option FpSlot} (h : FpSlot.hasKey p a e = true)
    (hne : ¬ (q = p ∧ b = a)) : FpSlot.hasKey q b e = false := by
  cases e with
  | none => rfl
  | some f =>
    obtain ⟨rfl, rfl⟩ := FpSlot.hasKey_some.1 h
    refine Bool.eq_false_iff.2 fun hq => hne ?_
    obtain ⟨rfl, rfl⟩ := FpSlot.hasKey_some.1 hq
    exact ⟨rfl, rfl⟩

theorem fpAt_eq_some {s : State} {i : Nat} {f : FpSlot} : s.fpAt i = some f ↔ s.fps[i]? = some (some f) := by
  simp only [State.fpAt, List.getD_eq_getElem?_getD]
  cases s.fps[i]? <;> simp

/-- The slot `FindSlot` answers: the first that holds the key. -/
theorem findSlot_eq_some {s : State} {p : PgnValue} {a : Byte} {i : Nat} (h : findSlot s.fps p a = some i) :
    ∃ f, s.fps[i]? = some (some f) ∧ f.pgn = p ∧ f.sa = a ∧ fpLookup s p a = some f ∧
      ∀ j e, j < i → s.fps[j]? = some e → FpSlot.hasKey p a e = false := by
  obtain ⟨hi, hP, hlt⟩ := List.findIdx?_eq_some_iff_getElem.1 h
  cases he : s.fps[i] with
  | none => rw [he] at hP; exact absurd hP (by simp)
  | some f =>
    rw [he] at hP
    have hk := FpSlot.hasKey_some.1 hP
    have hlt' : ∀ j e, j < i → s.fps[j]? = some e → FpSlot.hasKey p a e = false := fun j e hj hje => by
      obtain ⟨hjl, rfl⟩ := List.getElem?_eq_some_iff.1 hje
      simpa using hlt j hj
    refine ⟨f, by rw [List.getElem?_eq_getElem hi, he], hk.1, hk.2, ?_, hlt'⟩
    have hset : s.fps.set i (some f) = s.fps := by rw [← he]; exact List.set_getElem_self hi
    have := find?_set_self hi hP hlt'
    rw [hset] at this
    rw [fpLookup, this]
    rfl

theorem findSlot_eq_none {s : State} {p : PgnValue} {a : Byte} :
    findSlot s.fps p a = none ↔ ∀ e ∈ s.fps, FpSlot.hasKey p a e = false := by
  simp [findSlot, List.findIdx?_eq_none_iff]

theorem fpLookup_eq_none {s : State} {p : PgnValue} {a : Byte} :
    fpLookup s p a = none ↔ findSlot s.fps p a = none := by
  constructor
  · intro h
    cases hf : findSlot s.fps p a with
    | none => rfl
    | some i =>
      obtain ⟨f, -, -, -, hl, -⟩ := findSlot_eq_some hf
      rw [h] at hl
      cases hl
  · intro h
    have : s.fps.find? (FpSlot.hasKey p a) = none :=
      List.find?_eq_none.2 fun e he => by rw [findSlot_eq_none.1 h e he]; exact Bool.false_ne_true
    rw [fpLookup, this]
    rfl

/-- A key that has a state has a slot that holds it. -/
theorem findSlot_of_lookup {s : State} {p : PgnValue} {a : Byte} {f : FpSlot} (h : fpLookup s p a = some f) :
    ∃ i, findSlot s.fps p a = some i ∧ s.fps[i]? = some (some f) ∧ f.pgn = p ∧ f.sa = a := by
  cases hf : findSlot s.fps p a with
  | none => rw [fpLookup_eq_none.2 hf] at h; cases h
  | some i =>
    obtain ⟨g, hg, hp, ha, hl, -⟩ := findSlot_eq_some hf
    rw [h] at hl
    obtain rfl : f = g := by simpa using hl
    exact ⟨i, rfl, hg, hp, ha⟩

theorem firstFree_eq_some {s : State} {i : Nat} (h : firstFree s.fps = some i) : s.fps[i]? = some none := by
  obtain ⟨hi, hP, -⟩ := List.findIdx?_eq_some_iff_getElem.1 h
  rw [List.getElem?_eq_getElem hi, Option.isNone_iff_eq_none.1 hP]

theorem firstFree_eq_none {s : State} : firstFree s.fps = none ↔ none ∉ s.fps := by
  simp only [firstFree, List.findIdx?_eq_none_iff, Option.isNone_eq_false_iff]
  constructor
  · intro h hn; exact absurd (h none hn) (by simp)
  · intro h e he
    cases e with
    | none => exact absurd he h
    | some f => rfl

/-- The slot of a reassembly step: it holds the key, or it is free and no slot holds the key. -/
def SlotFor (s : State) (p : PgnValue) (a : Byte) (i : Nat) : Prop :=
  findSlot s.fps p a = some i ∨ (findSlot s.fps p a = none ∧ s.fps[i]? = some none)

theorem SlotFor.entry {s : State} {p : PgnValue} {a : Byte} {i : Nat} (h : SlotFor s p a i) :
    ∃ e, s.fps[i]? = some e ∧ ∀ q b, ¬ (q = p ∧ b = a) → FpSlot.hasKey q b e = false := by
  rcases h with h | ⟨-, h⟩
  · obtain ⟨f, hf, hp, ha, -, -⟩ := findSlot_eq_some h
    exact ⟨some f, hf, fun q b hne => FpSlot.hasKey_other (FpSlot.hasKey_some.2 ⟨hp, ha⟩) hne⟩
  · exact ⟨none, h, fun _ _ _ => rfl⟩

/-- Where the table is in order, no other slot holds the step's key. -/
theorem SlotFor.others {s : State} {p : PgnValue} {a : Byte} {i : Nat} (h : SlotFor s p a i) (hs : s.TableOk) :
    ∀ j e, j ≠ i → s.fps[j]? = some e → FpSlot.hasKey p a e = false := by
  intro j e hj he
  rcases h with h | ⟨hn, -⟩
  · obtain ⟨f, hf, hp, ha, -, -⟩ := findSlot_eq_some h
    obtain ⟨hil, hie⟩ := List.getElem?_eq_some_iff.1 hf
    obtain ⟨hjl, rfl⟩ := List.getElem?_eq_some_iff.1 he
    have key : ∀ g, s.fps[j] = some g → ¬ (g.pgn = p ∧ g.sa = a) := fun g hg hk => by
      have hpair := List.pairwise_iff_getElem.1 hs.2
      rcases Nat.lt_or_gt_of_ne hj with hlt | hlt
      · have := hpair j i hjl hil hlt
        rw [hg, hie] at this
        simp [sameKey, hk.1, hk.2, hp, ha] at this
      · have := hpair i j hil hjl hlt
        rw [hg, hie] at this
        simp [sameKey, hk.1, hk.2, hp, ha] at this
    cases hg : s.fps[j] with
    | none => rfl
    | some g => exact Bool.eq_false_iff.2 fun hk => key g hg (FpSlot.hasKey_some.1 hk)
  · exact findSlot_eq_none.1 hn e (List.mem_of_getElem? he)

/-! ### Lookups after a slot changes -/

/-- Another key's state does not depend on what the step's slot becomes. -/
theorem fpLookup_set_other {s t : State} {p q : PgnValue} {a b : Byte} {i : Nat} {x : Option FpSlot}
    (h : SlotFor s p a i) (ht : t.fps = s.fps.set i x) (hx : FpSlot.hasKey q b x = false)
    (hne : ¬ (q = p ∧ b = a)) : fpLookup t q b = fpLookup s q b := by
  obtain ⟨e, he, hk⟩ := h.entry
  rw [fpLookup, fpLookup, ht, find?_set_of_not he (hk q b hne) hx]

/-- The step's own key after its slot is freed. -/
theorem fpLookup_set_none {s t : State} {p : PgnValue} {a : Byte} {i : Nat} (h : SlotFor s p a i) (hs : s.TableOk)
    (ht : t.fps = s.fps.set i none) : fpLookup t p a = none := by
  rw [fpLookup, ht, find?_set_none rfl (h.others hs)]
  rfl

/-- The step's own key after its slot is written. -/
theorem fpLookup_set_some {s t : State} {p : PgnValue} {a : Byte} {i : Nat} {f : FpSlot} (h : SlotFor s p a i)
    (hs : s.TableOk) (ht : t.fps = s.fps.set i (some f)) (hf : f.pgn = p ∧ f.sa = a) : fpLookup t p a = some f := by
  obtain ⟨e, he, -⟩ := h.entry
  obtain ⟨hi, -⟩ := List.getElem?_eq_some_iff.1 he
  rw [fpLookup, ht, find?_set_self hi (FpSlot.hasKey_some.2 hf) fun j e hj hje => h.others hs j e (by omega) hje]
  rfl

/-- The slot of a key's state is in order where the table is. -/
theorem slotOk_of_lookup {s : State} {p : PgnValue} {a : Byte} {f : FpSlot} (hs : s.TableOk)
    (h : fpLookup s p a = some f) : FpSlot.Ok f := by
  obtain ⟨i, -, hi, -, -⟩ := findSlot_of_lookup h
  exact hs.1 (some f) (List.mem_of_getElem? hi) f rfl

/-! ### One reassembly step -/

/-- What storing a slot and checking it can do. -/
theorem storeAndCheck_cases (s : State) (i : Nat) (f : FpSlot) :
    (f.count = f.total ∧ storeAndCheck s i f = complete s i f) ∨
    (f.count ≠ f.total ∧ storeAndCheck s i f = s.setFp i f) := by
  unfold storeAndCheck
  by_cases h : f.count = f.total
  · exact .inl ⟨h, if_pos h⟩
  · exact .inr ⟨h, if_neg h⟩

/-- A slot a reassembly step stores: the one a first fragment opens, or the key's own with a later fragment's bytes. -/
inductive Stored (s : State) (p : PgnValue) (a : Byte) : FpSlot → Prop where
  | opened (h : 2 ≤ s.fdlc.toNat) : Stored s p a (openedSlot s p a s.fragSeq)
  | appended (f : FpSlot) (h : fpLookup s p a = some f) (hd : s.fdlc.toNat ≠ 0)
      (he : f.expects s.fragSeq s.fragIdx = true) : Stored s p a (appendedSlot s f)

theorem Stored.key {s : State} {p : PgnValue} {a : Byte} {f : FpSlot} (h : Stored s p a f) :
    f.pgn = p ∧ f.sa = a := by
  cases h with
  | opened => exact ⟨rfl, rfl⟩
  | appended f h => obtain ⟨-, -, -, hp, ha⟩ := findSlot_of_lookup h; exact ⟨hp, ha⟩

/-- Everything a reassembly step can do: nothing, free the key's slot, or store a slot and check it. -/
theorem fpStep_cases (s : State) (p : PgnValue) (a : Byte) :
    fpStep s p a = s ∨
    (∃ i, findSlot s.fps p a = some i ∧ fpStep s p a = s.freeFp i) ∨
    (∃ i f, SlotFor s p a i ∧ Stored s p a f ∧ fpStep s p a = storeAndCheck s i f) := by
  have hfree : freeIfAny s (findSlot s.fps p a) = s ∨
      ∃ i, findSlot s.fps p a = some i ∧ freeIfAny s (findSlot s.fps p a) = s.freeFp i := by
    cases hf : findSlot s.fps p a with
    | none => exact .inl rfl
    | some i => exact .inr ⟨i, rfl, rfl⟩
  unfold fpStep
  by_cases h0 : s.fdlc.toNat = 0
  · rw [if_pos h0]
    exact hfree.imp id .inl
  rw [if_neg h0]
  by_cases hx : s.fragIdx = 0
  · rw [if_pos hx]
    by_cases h2 : s.fdlc.toNat < 2
    · rw [if_pos h2]
      exact hfree.imp id .inl
    rw [if_neg h2]
    cases hf : findSlot s.fps p a with
    | some i => exact .inr (.inr ⟨i, _, .inl hf, .opened (by omega), rfl⟩)
    | none =>
      simp only [fpFirst]
      cases hfr : firstFree s.fps with
      | none => exact .inl rfl
      | some i => exact .inr (.inr ⟨i, _, .inr ⟨hf, firstFree_eq_some hfr⟩, .opened (by omega), rfl⟩)
  · rw [if_neg hx]
    cases hf : findSlot s.fps p a with
    | none => exact .inl rfl
    | some i =>
      obtain ⟨f, hfi, -, -, hl, -⟩ := findSlot_eq_some hf
      simp only [fpNext, fpAt_eq_some.2 hfi]
      cases he : f.expects s.fragSeq s.fragIdx with
      | true => exact .inr (.inr ⟨i, _, .inl hf, .appended f hl h0 he, by simp⟩)
      | false => exact .inr (.inl ⟨i, rfl, by simp⟩)

/-! ### Frame arrival -/

/-- A frame arrival latches the frame and makes at most one reassembly step. -/
theorem frameArrive_cases (s : State) (t : Word64) (id : Word32) (n : Nat) (w : Word64) :
    (pgnOf id ∉ s.cfg.fpPgns ∧ frameArrive s t id n w = latchFrame s t id n w) ∨
    (pgnOf id ∈ s.cfg.fpPgns ∧
      frameArrive s t id n w = fpStep (latchFrame s t id n w) (pgnOf id) (sourceAddress id)) := by
  unfold frameArrive
  by_cases h : pgnOf id ∈ s.cfg.fpPgns
  · exact .inr ⟨h, if_pos h⟩
  · exact .inl ⟨h, if_neg h⟩

/-- A port frame does nothing while the block is halted. -/
theorem portArrive_cases (s : State) (f : PortFrame) :
    (s.status.fault = true ∧ portArrive s f = s) ∨
    (s.status.fault = false ∧ portArrive s f = frameArrive s f.time f.id f.bytes.length f.word) := by
  unfold portArrive State.halted
  cases h : s.status.fault with
  | true => exact .inl ⟨rfl, rfl⟩
  | false => exact .inr ⟨rfl, rfl⟩

end Sys2Proof.Machine
end

