-- ==== Sys2Proof/Laws/PerInstr.lean ====
section
/-!
SUPPORT. The family TableRow: every command's word matches its row of spec/opcode_table.json, mask and match read off
the table.
-/

namespace Sys2Proof.Laws.TableRow

/-- The row's "mask" in spec/opcode_table.json. -/
def mask : Instr → Word32
  | .sa => 0xFFFFFFFF
  | .ps => 0xFFFFFFFF
  | .pf => 0xFFFFFFFF
  | .dp => 0xFFFFFFFF
  | .edp => 0xFFFFFFFF
  | .prio => 0xFFFFFFFF
  | .pgn => 0xFFFFFFFF
  | .canid => 0xFFFFFFFF
  | .samepgn => 0xFFFFFFFF
  | .acompile _ => 0xFF00FFFF
  | .acall _ => 0xFF00FFFF
  | .frameIn _ => 0xFFFFFFF0

/-- The row's "match" in spec/opcode_table.json. -/
def pattern : Instr → Word32
  | .sa => 0x01000000
  | .ps => 0x02000000
  | .pf => 0x03000000
  | .dp => 0x04000000
  | .edp => 0x05000000
  | .prio => 0x06000000
  | .pgn => 0x07000000
  | .canid => 0x08000000
  | .samepgn => 0x09000000
  | .acompile _ => 0x10000000
  | .acall _ => 0x11000000
  | .frameIn _ => 0x20000000

/-- The command's word agrees with its row on the row's fixed bits. -/
def Statement (i : Instr) : Prop := encode i &&& mask i = pattern i

theorem sa : Statement .sa := by unfold Statement; decide
theorem ps : Statement .ps := by unfold Statement; decide
theorem pf : Statement .pf := by unfold Statement; decide
theorem dp : Statement .dp := by unfold Statement; decide
theorem edp : Statement .edp := by unfold Statement; decide
theorem prio : Statement .prio := by unfold Statement; decide
theorem pgn : Statement .pgn := by unfold Statement; decide
theorem canid : Statement .canid := by unfold Statement; decide
theorem samepgn : Statement .samepgn := by unfold Statement; decide

theorem acompile (slot : Nat) : Statement (.acompile slot) := by
  simp only [Statement, encode, wordS, opcodeOf, mask, pattern]
  generalize BitVec.ofNat 8 slot = x
  revert x
  decide

theorem acall (slot : Nat) : Statement (.acall slot) := by
  simp only [Statement, encode, wordS, opcodeOf, mask, pattern]
  generalize BitVec.ofNat 8 slot = x
  revert x
  decide

theorem frameIn (dlc : Nat) : Statement (.frameIn dlc) := by
  simp only [Statement, encode, wordF, opcodeOf, mask, pattern]
  generalize BitVec.ofNat 4 dlc = x
  revert x
  decide

end Sys2Proof.Laws.TableRow
end

