-- ==== Sys2Proof/Tests/Slice0.lean ====
section
/-!
SUPPORT. The tests: ill-formed commands refused, every command's word written out from spec/30_encoding.md R82 and R83,
at most two steps per command with the values of spec/95_test_vectors.md, and for every statement with hypotheses a
concrete state and operands that meet them.
-/

namespace Sys2Proof.Tests

open Sys2Proof.Machine Sys2Proof.Claims

/-! ### States to test on -/

/-- The reset state with agent steps to come. -/
def waiting (es : List Event) : State := { State.reset with pending := es }

/-- The reset state with operands. -/
def withOperands (a b c : Word64) : State := { State.reset with opa := a, opb := b, opc := c }

/-- The block halted by ACALL of an empty slot (spec/95_test_vectors.md P4), with agent steps to come. -/
def halted (es : List Event) : State :=
  { State.reset with status := { fault := true, fcode := 0x05, fop := 0x11 }, pending := es }

/-- A host write of `w` to `CMD`. -/
def command (w : Word32) : Event := .write .w32 0 w

/-- The state a step or a command answers, the reset state where it answers none. -/
def nextState (o : Host.Outcome State Fault Refusal) : State :=
  match o with
  | .next s => s
  | .fault _ => State.reset
  | .refused _ => State.reset

/-- Slot 0 compiled as `a`, over the operand word `w` (spec/95_test_vectors.md §2.6: source OPB in place of MSG). -/
def calling (a : Accessor) (w : Word64) : State :=
  { State.reset with opb := w, acc := some a :: List.replicate 15 none }

/-- The frame register holding `d`, with `f` the reassembly slots. -/
def holding (d : List Byte) (n : BitVec 4) (f : List (Option FpSlot)) : State :=
  { State.reset with
    ftime := 9
    fid := 0x09F01423
    fdlc := n
    fdata := (List.range 8).foldl (fun m i => Memory.write m i (d.getD i 0)) []
    fps := f }

/-- A reassembly of key A, PGN 0x1F014 and source 0x23 (spec/95_test_vectors.md §2.8), without stored bytes. -/
def keyA (total count : Byte) (seq : BitVec 3) (next : BitVec 6) : FpSlot :=
  { pgn := 0x1F014, sa := 0x23, total := total, count := count, seq := seq, next := next, buf := [] }

/-- The empty reassembly table. -/
def empty : List (Option FpSlot) := [none, none, none, none]

/-- A table with the one state `f`. -/
def only (f : FpSlot) : List (Option FpSlot) := [some f, none, none, none]

/-- A frame of key A at the CAN receive port. -/
def arriving (bytes : List Byte) (h : bytes.length ≤ 8) : PortFrame :=
  { time := 1, id := 0x09F01423, bytes := bytes, short := h }

/-- The fields of the accessors of spec/95_test_vectors.md §2.6. -/
def field (start : BitVec 16) (len : BitVec 7) (be sg w64 : Bool) (src : Source) : Accessor :=
  { start := start, len := len, be := be, sg := sg, w64 := w64, src := src }

/-! ### Well-formed commands -/

theorem test_wf_refuses_acompile_256 : Instr.wf (.acompile 256) = false := by decide
theorem test_wf_refuses_acall_256 : Instr.wf (.acall 256) = false := by decide
theorem test_wf_refuses_frameIn_16 : Instr.wf (.frameIn 16) = false := by decide
theorem test_wf_accepts_the_last_operands :
    Instr.wf (.acompile 255) = true ∧ Instr.wf (.acall 255) = true ∧ Instr.wf (.frameIn 15) = true := by decide

/-! ### Words written out from the formats (spec/30_encoding.md R82) and the opcode map (R83) -/

theorem test_decode_sa : decode 0b00000001000000000000000000000000#32 = .instr .sa := by decide
theorem test_decode_ps : decode 0b00000010000000000000000000000000#32 = .instr .ps := by decide
theorem test_decode_pf : decode 0b00000011000000000000000000000000#32 = .instr .pf := by decide
theorem test_decode_dp : decode 0b00000100000000000000000000000000#32 = .instr .dp := by decide
theorem test_decode_edp : decode 0b00000101000000000000000000000000#32 = .instr .edp := by decide
theorem test_decode_prio : decode 0b00000110000000000000000000000000#32 = .instr .prio := by decide
theorem test_decode_pgn : decode 0b00000111000000000000000000000000#32 = .instr .pgn := by decide
theorem test_decode_canid : decode 0b00001000000000000000000000000000#32 = .instr .canid := by decide
theorem test_decode_samepgn : decode 0b00001001000000000000000000000000#32 = .instr .samepgn := by decide
theorem test_decode_acompile : decode 0b00010000101001100000000000000000#32 = .instr (.acompile 166) := by decide
theorem test_decode_acall : decode 0b00010001000000110000000000000000#32 = .instr (.acall 3) := by decide
theorem test_decode_frameIn : decode 0b00100000000000000000000000001010#32 = .instr (.frameIn 10) := by decide

/-- spec/30_encoding.md R87: the gap after SAMEPGN, and the neighbours of the other groups. -/
theorem test_decode_undefined :
    decode 0x0A000000#32 = .illegal .illegalOpcode ∧ decode 0x12000000#32 = .illegal .illegalOpcode ∧
      decode 0x21000000#32 = .illegal .illegalOpcode ∧ decode 0x00000000#32 = .illegal .illegalOpcode := by decide

/-- spec/95_test_vectors.md §2.4, the rows RESERVED_BITS. -/
theorem test_decode_reserved :
    decode 0x07800000#32 = .illegal .reservedBits ∧ decode 0x10000100#32 = .illegal .reservedBits ∧
      decode 0x11000001#32 = .illegal .reservedBits ∧ decode 0x2000FF08#32 = .illegal .reservedBits := by decide

theorem test_encode_words :
    encode .canid = 0x08000000#32 ∧ encode (.acompile 3) = 0x10030000#32 ∧ encode (.frameIn 15) = 0x2000000F#32 := by
  decide

/-- The opcode table gives the bits of FRAME_IN's word. -/
theorem test_decodeTableWord : decodeTableWord 32 0x20000008 = some (.frameIn 8) := by decide

/-! ### The commands (spec/95_test_vectors.md §2.1 to §2.8) -/

theorem test_sa : (nextState (exec .sa (withOperands 0x18EEFF1C 0 0))).res = 0x1C := by decide
theorem test_ps : (nextState (exec .ps (withOperands 0x18EEFF1C 0 0))).res = 0xFF := by decide
theorem test_pf : (nextState (exec .pf (withOperands 0x1DEFAB01 0 0))).res = 0xEF := by decide
theorem test_dp : (nextState (exec .dp (withOperands 0x09F01423 0 0))).res = 1 := by decide
theorem test_edp : (nextState (exec .edp (withOperands 0x02000000 0 0))).res = 1 := by decide

/-- Bit 28 is not read (spec/40_pgn_codec.md R111). -/
theorem test_prio : (nextState (exec .prio (withOperands 0x18EEFF1C 0 0))).res = 2 := by decide

theorem test_pgn_pdu1 : (nextState (exec .pgn (withOperands 0x1DEFAB01 0 0))).res = 0x1EF00 := by decide
theorem test_pgn_pdu2 : (nextState (exec .pgn (withOperands 0x1DF0AB01 0 0))).res = 0x1F0AB := by decide
theorem test_canid : (nextState (exec .canid (withOperands 0x1FA06 0 0))).res = 0x01FA06FE := by decide
theorem test_canid_drops_high_bits :
    (nextState (exec .canid (withOperands 0xFFFFFFFF 0 0))).res = 0x01FFFFFE := by decide
theorem test_samepgn : (nextState (exec .samepgn (withOperands 0x18EEFF1C 0x0CEE0017 0))).res = 1 := by decide
theorem test_samepgn_data_page :
    (nextState (exec .samepgn (withOperands 0x09F01423 0x08F01423 0))).res = 0 := by decide

/-- spec/41_bit_accessor.md R141, the example: the slot reads 0x90100008. -/
theorem test_acompile :
    accessorWord ((nextState (exec (.acompile 0) (withOperands 0x10100008 0 0))).accAt 0) = 0x90100008#32 := by decide

/-- spec/95_test_vectors.md §2.5: 65 bits of an 8-byte source. -/
theorem test_acompile_bad_descriptor :
    (nextState (exec (.acompile 0) (withOperands 0x00010040 0 0))).status =
      { fault := true, fcode := 0x04, fop := 0x10 } := by decide

/-- Row X37: 32 bits over 5 bytes, big-endian, signed, a 64-bit accessor. -/
theorem test_acall_big_endian :
    (nextState (exec (.acall 0) (calling (field 20 32 true true true .opb) 0xF1F2F3F4F5F6F7F8))).res =
      0xFFFFFFFFFF4F5F67 := by decide

/-- Row X33: an odd start and length, little-endian. -/
theorem test_acall_little_endian :
    (nextState (exec (.acall 0) (calling (field 3 13 false false false .opb) 0xF1F2F3F4F5F6F7F8))).res =
      0x1E5E := by decide

/-- Row F2: the total fits in the first fragment. -/
theorem test_frameIn_completes :
    (nextState (exec (.frameIn 8) (withOperands 0x09F01423 0x2006A1A2A3A4A5A6 7))).out =
      [{ time := 7, id := 0x09F01423, pgn := 0x1F014, sa := 0x23, len := 6,
         bytes := [0xA1, 0xA2, 0xA3, 0xA4, 0xA5, 0xA6] }] := by decide

/-- spec/95_test_vectors.md §2.9, `FRAME_IN 3`: the bytes at or beyond the data length are 0. -/
theorem test_frameIn_short :
    (nextState (exec (.frameIn 3) (withOperands 0 0xAABBCCDDEEFF1122 0))).fword = 0xAABBCC0000000000 := by decide

/-! ### Steps -/

/-- The word stored where the machine takes its next instruction runs. -/
theorem test_withFetchWord :
    (nextState (step ((withOperands 0x18EEFF1C 0 0).withFetchWord 32 0x07000000))).res = 0xEE00 := by decide

/-- spec/95_test_vectors.md §2.4: `ILLEGAL_OPCODE` of the all-zero word. -/
theorem test_step_undefined :
    statusWord (nextState (step (waiting [command 0x00000000]))).status = 0x00000101#32 := by decide

/-- spec/95_test_vectors.md §2.4: RESERVED_BITS comes before BAD_SLOT. -/
theorem test_step_priority :
    statusWord (nextState (step (waiting [command 0x10400001]))).status = 0x00100201#32 := by decide

/-- spec/95_test_vectors.md P4: a halted block ignores a command. -/
theorem test_step_halted : (nextState (step (halted [command 0x07000000]))).status = (halted []).status := by decide

/-- spec/95_test_vectors.md §2.9: `INFO`. -/
theorem test_step_info : (nextState (step (waiting [.read .w32 0x02C]))).bus = [.data 0x01DF0410] := by decide

/-- spec/95_test_vectors.md §2.9: a write at 0x00A is refused. -/
theorem test_step_misaligned : (nextState (step (waiting [.write .w32 0x00A 1]))).bus = [.busError] := by decide

/-- A row F4: a fragment of another sequence discards the state. -/
theorem test_step_desynchronised :
    (fpStep (holding [0x41] 8 (only (keyA 10 6 1 1))) 0x1F014 0x23).fps = empty := by decide

/-! ### Witnesses: encoding -/

theorem witness_CommandWordsRoundTrip :
    Instr.wf .sa = true ∧ Instr.wf (.acompile 255) = true ∧ Instr.wf (.acall 0) = true ∧
      Instr.wf (.frameIn 15) = true := by decide

theorem witness_DecodedWordIsItsEncoding :
    decode 0x10FF0000#32 = .instr (.acompile 255) ∧ decode 0x2000000F#32 = .instr (.frameIn 15) := by decide

theorem witness_UndefinedOpcodeFaults :
    ∀ w ∈ [0x00000000#32, 0x0A000000#32, 0x0F123456#32, 0x12000000#32, 0x1F000000#32, 0x21000000#32, 0xFF000000#32],
      (waiting [command w]).Running ∧ (waiting [command w]).pending = [.write .w32 State.reset.cfg.base w] ∧
        UndefinedOpcode (opcodeNumber w) := by
  intro w hw
  fin_cases hw <;> decide

theorem witness_ReservedBitsFault :
    ∀ w ∈ [0x01000001#32, 0x09800000#32, 0x10000001#32, 0x11008000#32, 0x20000010#32, 0x20800000#32],
      (waiting [command w]).Running ∧ (waiting [command w]).pending = [.write .w32 State.reset.cfg.base w] ∧
        ReservedBitsSet w := by
  intro w hw
  fin_cases hw <;> decide

theorem witness_StepExecutesWrittenCommand :
    (waiting [command 0x11000000]).pending = [.write .w32 State.reset.cfg.base 0x11000000] ∧
      decode 0x11000000#32 = .instr (.acall 0) := by decide

/-! ### Witnesses: PGN codec -/

theorem witness_FieldCommandsGiveTheirFields : (withOperands 0x18EEFF1C 0 0).Running := by decide
theorem witness_PgnCommandGivesPgn : (withOperands 0x1DF0AB01 0 0).Running := by decide
theorem witness_CanidCommandGivesIdentifier : (withOperands 0x1FA06 0 0).Running := by decide
theorem witness_SamepgnCommandComparesPgns : (withOperands 0x18EEFF1C 0x0CEE0017 0).Running := by decide
theorem witness_PgnSurvivesCanidRoundTrip : (withOperands 0x1DEFAB01 0 0).Running := by decide

/-- The clauses of a command that runs, of one that is ignored, of two states with one operand, and of a word with
reserved bits set or not. -/
theorem witness_CodecCommandsArePure :
    Instr.samepgn ∈ codecCommands ∧ State.reset.Running ∧ (halted []).status.fault = true ∧
      (bits (withOperands 0x1FFFFFFFF 1 0).opa.toNat 0 32 = bits (withOperands 0xFFFFFFFF 1 9).opa.toNat 0 32 ∧
        bits (withOperands 0x1FFFFFFFF 1 0).opb.toNat 0 32 = bits (withOperands 0xFFFFFFFF 1 9).opb.toNat 0 32) ∧
      opcodeNumber 0x09800000#32 = (opcodeOf .samepgn).toNat ∧ bits 0x09800000 0 24 ≠ 0 ∧
      opcodeNumber 0x09000000#32 = (opcodeOf .samepgn).toNat ∧ bits 0x09000000 0 24 = 0 := by decide

theorem witness_CodecCommandsArePure_next :
    (∃ t, exec .samepgn State.reset = .next t) ∧ ∃ t, execWord 0x09800000 State.reset = .next t :=
  ⟨⟨_, rfl⟩, ⟨_, rfl⟩⟩

theorem witness_CanonicalPgnsAreTheImage :
    CanonicalPgn 0x1FFFF ∧ CanonicalPgn 0xEF00 ∧ ¬ CanonicalPgn 0xEF01 ∧ ¬ CanonicalPgn 0x20000 := by decide

/-! ### Witnesses: bit accessors -/

theorem witness_AcompileStoresDescriptor :
    0 ≤ 255 ∧ State.reset.cfg.nAcc ≤ 16 ∧ 15 < State.reset.cfg.nAcc ∧
    (∀ d ∈ [0x00000000#64, 0x00010040#64, 0x00210000#64, 0x30100000#64, 0x100106F8#64, 0x40100000#64],
      (withOperands d 0 0).Running ∧ ¬ LegalDescriptor (bits (withOperands d 0 0).opa.toNat 0 32)) ∧
    (∀ d ∈ [0x00200020#64, 0x04400000#64, 0x100106F7#64, 0x10100008#64],
      (withOperands d 0 0).Running ∧ LegalDescriptor (bits (withOperands d 0 0).opa.toNat 0 32)) := by
  refine ⟨by decide, by decide, by decide, fun d hd => ?_, fun d hd => ?_⟩ <;> fin_cases hd <;> decide

theorem witness_CompiledSlotReadsBack :
    (withOperands 0x24400000 0 0).Running ∧ (withOperands 0x24400000 0 0).SizesOk ∧ 15 < State.reset.cfg.nAcc ∧
      LegalDescriptor (bits (withOperands 0x24400000 0 0).opa.toNat 0 32) ∧
      (nextState (exec (.acompile 15) (withOperands 0x24400000 0 0))).accAt 15 =
        some (field 0 64 false false true .opb) := by decide

/-- A slot over the message register: bit 119 of a 15-byte message is inside it, bit 120 is not. -/
theorem witness_AcallGivesField :
    State.reset.Running ∧ State.reset.cfg.nAcc ≤ 16 ∧ 15 < State.reset.cfg.nAcc ∧ State.reset.accAt 15 = none ∧
      (∀ a ∈ [field 119 1 false false false .msg, field 120 1 false false false .msg],
        (calling a 0).Running ∧ 0 < (calling a 0).cfg.nAcc ∧ (calling a 0).accAt 0 = some a) ∧
      8 * State.sourceLen { calling (field 120 1 false false false .msg) 0 with mlen := 15 } .msg < 120 + 1 ∧
      119 + 1 ≤ 8 * State.sourceLen { calling (field 119 1 false false false .msg) 0 with mlen := 15 } .msg ∧
      (calling (field 63 1 true false false .frame) 0).AccessorsOk ∧ Source.frame ≠ .msg := by decide

theorem witness_LittleEndianFieldBits :
    ∀ a ∈ [field 0 1 false false false .opb, field 7 2 false false false .frame, field 0 64 false false true .opb,
        field 63 1 false false false .opb],
      Callable (calling a 0xF1F2F3F4F5F6F7F8) 0 a ∧ a.be = false ∧ a.sg = false := by decide

theorem witness_BigEndianFieldBits :
    ∀ a ∈ [field 0 1 true false false .opb, field 20 32 true false false .opb, field 0 64 true false true .opb],
      Callable (calling a 0xF1F2F3F4F5F6F7F8) 0 a ∧ a.be = true ∧ a.sg = false ∧
        (∀ m ∈ [a.start.toNat, a.start.toNat + a.len.toNat - 1],
          a.start.toNat ≤ m ∧ m < a.start.toNat + a.len.toNat) := by decide

theorem witness_SignedFieldIsExtended :
    ∀ a ∈ [field 0 1 false true false .opb, field 4 8 true true false .opb, field 0 64 true true true .opb],
      Callable (calling a 0xF1F2F3F4F5F6F7F8) 0 a ∧ a.sg = true ∧
        0 < (calling a 0xF1F2F3F4F5F6F7F8).acc.length := by decide

theorem witness_SingleByteFieldIgnoresOrder :
    ∀ a ∈ [field 0 8 false false false .opb, field 7 1 false true false .frame],
      1 ≤ a.len.toNat ∧ a.start.toNat / 8 = (a.start.toNat + a.len.toNat - 1) / 8 := by decide

theorem witness_AlignedBigEndianReversesBytes :
    ∀ a ∈ [field 8 16 false false false .msg, field 0 64 false false true .opb],
      a.sg = false ∧ 1 ≤ a.len.toNat ∧ a.len.toNat ≤ 64 ∧ a.start.toNat % 8 = 0 ∧ a.len.toNat % 8 = 0 ∧
        (∀ i ∈ [0, a.len.toNat / 8 - 1], i < a.len.toNat / 8) := by decide

theorem witness_OperandWordForms :
    (∀ a ∈ [field 3 13 false false false .opb, field 0 64 false false true .opb],
      a.src = .opb ∧ a.sg = false ∧ 1 ≤ a.len.toNat ∧ a.start.toNat + a.len.toNat ≤ 64 ∧ a.be = false) ∧
    (∀ a ∈ [field 8 16 true false false .opb, field 56 8 true false false .opb],
      a.src = .opb ∧ a.sg = false ∧ 1 ≤ a.len.toNat ∧ a.start.toNat + a.len.toNat ≤ 64 ∧ a.be = true ∧
        a.start.toNat % 8 = 0 ∧ a.len.toNat % 8 = 0) := by decide

/-- One descriptor over both sources, in slots 0 and 1. -/
def bothSources : State :=
  { State.reset with
    opb := 0xF1F2F3F4F5F6F7F8
    acc := some (field 20 32 true true true .frame) :: some (field 20 32 true true true .opb) ::
      List.replicate 14 none }

theorem witness_FrameAndOperandSourcesAgree :
    bothSources.Running ∧ 0 < bothSources.cfg.nAcc ∧ 1 < bothSources.cfg.nAcc ∧
      bothSources.accAt 0 = some { field 20 32 true true true .msg with src := .frame } ∧
      bothSources.accAt 1 = some { field 20 32 true true true .msg with src := .opb } ∧
      1 ≤ (32#7).toNat ∧ (20#16).toNat + (32#7).toNat ≤ 64 := by decide

/-! ### Witnesses: frame input -/

theorem witness_FrameArrivalLatchesTheFrame :
    (withOperands 0x09F01423 0x2006A1A2A3A4A5A6 7).Running ∧
      BitVec.ofNat 17 (pgnNumber (withOperands 0x09F01423 0 0).opa.toNat) ∈ State.reset.cfg.fpPgns ∧
      BitVec.ofNat 17 (pgnNumber (withOperands 0x0CEA0017 0 0).opa.toNat) ∉ State.reset.cfg.fpPgns ∧
      (waiting [.frame (arriving [] (by decide))]).Running ∧
      (waiting [.frame (arriving [] (by decide))]).pending = [.frame (arriving [] (by decide))] := by decide

theorem witness_FrameInBadDlcFaults : State.reset.Running ∧ 8 < 9 ∧ 8 < 15 := by decide

theorem witness_FrameInFrame :
    (holding [0x20, 0x0A] 8 (only (keyA 10 6 1 1))).FrameOk ∧
      (holding [0x20, 0x0A] 8 (only (keyA 10 6 1 1))).TableOk ∧ (halted []).status.fault = true := by decide

theorem witness_FrameInFrame_next :
    ∃ t, exec (.frameIn 8) (holding [0x20, 0x0A] 8 (only (keyA 10 6 1 1))) = .next t := ⟨_, rfl⟩

theorem witness_PortFrameActsAsFrameIn :
    (waiting [.frame (arriving [0, 3, 1, 2, 3, 0, 0, 0] (by decide)), .reset]).Running ∧
      (waiting [.frame (arriving [0, 3, 1, 2, 3, 0, 0, 0] (by decide)), .reset]).pending =
        .frame (arriving [0, 3, 1, 2, 3, 0, 0, 0] (by decide)) :: [.reset] := by decide

theorem witness_HaltedPortFrameDiscarded :
    (halted [.frame (arriving [0, 0] (by decide))]).status.fault = true ∧
      (halted [.frame (arriving [0, 0] (by decide))]).pending = [.frame (arriving [0, 0] (by decide))] := by decide

/-! ### Witnesses: reassembly -/

/-- The total is one more than the bytes carried: 7 in a frame of 8 bytes, 1 in one of 2. -/
theorem witness_FirstFragmentOpensState :
    ∀ s ∈ [holding [0x20, 7, 1, 2, 3, 4, 5, 6] 8 empty, holding [0x40, 1] 2 (only (keyA 10 6 1 1))],
      s.FrameOk ∧ s.TableOk ∧ IsFirst s ∧ HasRoom s 0x1F014 0x23 ∧
        s.fdlc.toNat - 2 < (Memory.read s.fdata 1).toNat := by decide

/-- The total is exactly the bytes carried, and 0. -/
theorem witness_CompletingFragmentDelivers_first :
    ∀ s ∈ [holding [0x20, 6, 1, 2, 3, 4, 5, 6] 8 empty, holding [0x00, 0] 2 empty],
      s.FrameOk ∧ s.TableOk ∧ IsFirst s ∧ HasRoom s 0x1F014 0x23 ∧
        (Memory.read s.fdata 1).toNat ≤ s.fdlc.toNat - 2 := by decide

/-- A later fragment with exactly the bytes still needed, and one with more. -/
theorem witness_CompletingFragmentDelivers_later :
    ∀ f ∈ [keyA 13 6 1 1, keyA 7 6 1 1],
      (holding [0x21, 1, 2, 3, 4, 5, 6, 7] 8 (only f)).FrameOk ∧
        (holding [0x21, 1, 2, 3, 4, 5, 6, 7] 8 (only f)).TableOk ∧
        IsLater (holding [0x21, 1, 2, 3, 4, 5, 6, 7] 8 (only f)) ∧
        fpLookup (holding [0x21, 1, 2, 3, 4, 5, 6, 7] 8 (only f)) 0x1F014 0x23 = some f ∧
        Expected (holding [0x21, 1, 2, 3, 4, 5, 6, 7] 8 (only f)) f ∧
        f.total.toNat ≤ f.count.toNat + ((8#4).toNat - 1) := by decide

theorem witness_MalformedFragmentDiscards :
    ∀ s ∈ [holding [] 0 (only (keyA 10 6 1 1)), holding [0x20] 1 (only (keyA 10 6 1 1))],
      s.TableOk ∧ (s.fdlc.toNat = 0 ∨ (s.fdlc.toNat = 1 ∧ bits (Memory.read s.fdata 0).toNat 0 5 = 0)) := by decide

theorem witness_FullTableDropsFirstFragment :
    IsFirst (holding [0, 3, 1, 2, 3] 8 [some (keyA 10 6 1 1)]) ∧
      fpLookup (holding [0, 3, 1, 2, 3] 8 [some (keyA 10 6 1 1)]) 0x1F014 0x42 = none ∧
      none ∉ (holding [0, 3, 1, 2, 3] 8 [some (keyA 10 6 1 1)]).fps := by decide

theorem witness_LaterFragmentWithoutStateDropped :
    IsLater (holding [0x21] 8 empty) ∧ fpLookup (holding [0x21] 8 empty) 0x1F014 0x23 = none := by decide

/-- Another sequence identifier, and another index. -/
theorem witness_UnexpectedFragmentDiscards :
    ∀ s ∈ [holding [0x41] 8 (only (keyA 10 6 1 1)), holding [0x22] 8 (only (keyA 10 6 1 1))],
      s.TableOk ∧ IsLater s ∧ fpLookup s 0x1F014 0x23 = some (keyA 10 6 1 1) ∧ ¬ Expected s (keyA 10 6 1 1) := by
  decide

/-- One byte fewer than the total needs, and a fragment without data. -/
theorem witness_ExpectedFragmentAppends :
    ∀ s ∈ [holding [0x21, 1, 2, 3, 4, 5, 6, 7] 8 (only (keyA 14 6 1 1)), holding [0x21] 1 (only (keyA 14 6 1 1))],
      s.FrameOk ∧ s.TableOk ∧ IsLater s ∧ fpLookup s 0x1F014 0x23 = some (keyA 14 6 1 1) ∧
        Expected s (keyA 14 6 1 1) ∧ (6#8).toNat + (s.fdlc.toNat - 1) < (14#8).toNat := by decide

theorem witness_KeysReassembleIndependently :
    (holding [0x21] 8 (only (keyA 14 6 1 1))).TableOk ∧
      ¬ ((0x1F014 : PgnValue) = 0x1F014 ∧ (0x42 : Byte) = 0x23) := by decide

/-- Total 224 at index 31, the last that can match, and after it. -/
theorem witness_OversizedTotalNeverCompletes :
    ∀ f ∈ [keyA 224 216 1 31, keyA 224 223 1 32],
      (holding [0x3F, 1, 2, 3, 4, 5, 6, 7] 8 (only f)).FrameOk ∧
        (holding [0x3F, 1, 2, 3, 4, 5, 6, 7] 8 (only f)).TableOk ∧
        IsLater (holding [0x3F, 1, 2, 3, 4, 5, 6, 7] 8 (only f)) ∧
        fpLookup (holding [0x3F, 1, 2, 3, 4, 5, 6, 7] 8 (only f)) 0x1F014 0x23 = some f ∧ 223 < f.total.toNat := by
  decide

/-- A frame that completes its message, from a state in order. -/
theorem witness_OneEventPerCompletion :
    (waiting [.frame (arriving [0, 0] (by decide))]).Inv ∧
      (waiting [.frame (arriving [0, 0] (by decide))]).pending.head? ≠ some .reset := by decide

theorem witness_OneEventPerCompletion_next :
    ∃ t, step (waiting [.frame (arriving [0, 0] (by decide))]) = .next t := ⟨_, rfl⟩

/-- A message of the greatest length, and the empty one, with every slot free. -/
def fragmented (l : List Byte) : State := waiting (fragmentEvents (fun _ => 3) 0x09F01423 1 l ++ [.reset])

theorem witness_FragmentedMessageIsReassembled (l : List Byte) (h : l = [] ∨ l = List.replicate 223 0xA5) :
    (fragmented l).Inv ∧ (fragmented l).Running ∧ pgnOf 0x09F01423 ∈ (fragmented l).cfg.fpPgns ∧
      HasRoom (fragmented l) (pgnOf 0x09F01423) (sourceAddress 0x09F01423) ∧ l.length ≤ 223 ∧
      (fragmented l).pending = fragmentEvents (fun _ => 3) 0x09F01423 1 l ++ [.reset] := by
  refine ⟨(by decide : State.reset.Inv), rfl, by show _ ∈ Config.vectors.fpPgns; decide, .inr ?_, ?_, rfl⟩
  · show none ∈ State.reset.fps
    decide
  · rcases h with rfl | rfl
    · exact Nat.zero_le _
    · exact (List.length_replicate ..).le

/-! ### Witnesses: faults, halting, reset -/

theorem witness_HaltedBlockBehaviour :
    (∀ e ∈ [command 0x07000000, .frame (arriving [0, 0] (by decide)), .read .w32 0x020, .read .w8 0x004,
        .read .w32 0x004, .write .w32 0x008 5, .write .w32 0x01C 5],
      (halted [e]).status.fault = true ∧ (halted [e]).pending = [e]) ∧
    (∀ off ∈ [0x008, 0x00C, 0x010, 0x014, 0x018, 0x01C],
      off ∈ (operandWrites (responded (halted []) [] .done) 5).map Prod.fst) := by decide

theorem witness_OnlyResetLeavesFaultState :
    (halted [command 0]).status.fault = true ∧ (halted [command 0]).pending.head? ≠ some .reset ∧
      (halted [.reset]).status.fault = true ∧ (halted [.reset]).pending.head? = some .reset := by decide

theorem witness_OnlyResetLeavesFaultState_next :
    (∃ t, step (halted [command 0]) = .next t) ∧ ∃ t, step (halted [.reset]) = .next t := ⟨⟨_, rfl⟩, ⟨_, rfl⟩⟩

/-- A command that faults: ACALL of an empty slot. -/
theorem witness_FaultsArePrecise :
    (waiting [command 0x11000000]).Running ∧
      step (waiting [command 0x11000000]) = .next (nextState (step (waiting [command 0x11000000]))) ∧
      (nextState (step (waiting [command 0x11000000]))).status.fault = true := ⟨by decide, rfl, by decide⟩

/-- One word for each outcome of the checks: none fails, and each of the seven faults. -/
theorem witness_FirstFailingCheckIsTheFault :
    (withOperands 0x100106F7 0 0).Running ∧ expectedFault (withOperands 0x100106F7 0 0) 0x10000000 = 0 ∧
      expectedFault State.reset 0x0A000000 = 1 ∧ expectedFault State.reset 0x10400001 = 2 ∧
      expectedFault State.reset 0x11100000 = 3 ∧ expectedFault State.reset 0x10000000 = 4 ∧
      expectedFault State.reset 0x110F0000 = 5 ∧
      expectedFault (calling (field 0 1 false false false .msg) 0) 0x11000000 = 6 ∧
      expectedFault State.reset 0x20000009 = 7 := by decide

theorem witness_ResetStateMeetsInvariant :
    Config.Legal { base := 0, nAcc := 1, nFp := 1, fpPgns := [] } ∧
      Config.Legal { base := 4096, nAcc := 64, nFp := 255, fpPgns := [0x1FFFF] } := by decide

theorem witness_StepKeepsInvariant : (waiting [.frame (arriving [0x20, 9, 1] (by decide))]).Inv := by decide

theorem witness_StepKeepsInvariant_next :
    ∃ t, step (waiting [.frame (arriving [0x20, 9, 1] (by decide))]) = .next t := ⟨_, rfl⟩

theorem witness_ResetGivesResetValues : (halted [.reset, command 0]).pending = .reset :: [command 0] := by decide

/-! ### Witnesses: the register window -/

/-- Each other width, and each misalignment. -/
theorem witness_OddAccessesGetBusErrors :
    (∀ width ∈ [Width.w8, .w16, .w64],
      width ≠ .w32 ∧ (waiting [.read width 4]).pending = [.read width (State.reset.cfg.base + 4)] ∧
        (waiting [.write width 4 1]).pending = [.write width (State.reset.cfg.base + 4) 1]) ∧
    (∀ off ∈ [1, 2, 3, 10], off % 4 ≠ 0 ∧
      (waiting [.read .w32 off]).pending = [.read .w32 (State.reset.cfg.base + off)] ∧
      (waiting [.write .w32 off 1]).pending = [.write .w32 (State.reset.cfg.base + off) 1]) := by decide

/-- The first and the last offset of every reserved range. -/
theorem witness_ReservedOffsetsGetBusErrors :
    ∀ off ∈ [0x030, 0x03C, 0x058, 0x05C, 0x078, 0x0FC, 0x1E0, 0x1FC, 0x240, 0x2FC, 0x300, 0x3FC, 0x400],
      off % 4 = 0 ∧ ReservedOffset State.reset.cfg off ∧
        (waiting [.read .w32 off]).pending = [.read .w32 (State.reset.cfg.base + off)] ∧
        (waiting [.write .w32 off 1]).pending = [.write .w32 (State.reset.cfg.base + off) 1] := by decide

/-- The first and the last offset of every read-only range; none of them is reserved. -/
theorem witness_ReadOnlyRegistersIgnoreWrites :
    State.reset.cfg.Legal ∧
    (∀ off ∈ [0x004, 0x020, 0x02C, 0x040, 0x054, 0x060, 0x074, 0x100, 0x1DC, 0x200, 0x23C],
      off % 4 = 0 ∧ ReadOnlyOffset State.reset.cfg off ∧ ¬ ReservedOffset State.reset.cfg off ∧
        (waiting [.write .w32 off 1]).pending = [.write .w32 (State.reset.cfg.base + off) 1]) ∧
    (waiting [.read .w32 0]).pending = [.read .w32 State.reset.cfg.base] := by decide

theorem witness_WideRegistersAreTwoWords :
    (∀ off ∈ [0x008, 0x01C, 0x020, 0x054, 0x064], off ∈ (wideValues State.reset).map Prod.fst ∧
      (waiting [.read .w32 off]).pending = [.read .w32 (State.reset.cfg.base + off)]) ∧
    (∀ off ∈ [0x008, 0x01C], off ∈ (operandWrites (responded State.reset [] .done) 5).map Prod.fst ∧
      (waiting [.write .w32 off 5]).pending = [.write .w32 (State.reset.cfg.base + off) 5]) := by decide

theorem witness_RegisterReadsGiveTheirWords :
    State.reset.cfg.Legal ∧ (0x02C, 0x01DF0410) ∈ narrowValues State.reset ∧ (0x074, 0) ∈ narrowValues State.reset ∧
      (waiting [.read .w32 0x02C]).pending = [.read .w32 (State.reset.cfg.base + 0x02C)] := by decide

theorem witness_SlotWindowGivesSlotViews :
    State.reset.cfg.Legal ∧ ∀ k ∈ [0, 15], k < State.reset.cfg.nAcc ∧
      (waiting [.read .w32 (0x200 + 4 * k)]).pending = [.read .w32 (State.reset.cfg.base + (0x200 + 4 * k))] := by decide

theorem witness_MbufWindowGivesMessageBytes :
    ∀ j ∈ [0, 55], j ≤ 55 ∧
      (waiting [.read .w32 (0x100 + 4 * j)]).pending = [.read .w32 (State.reset.cfg.base + (0x100 + 4 * j))] := by
  decide

theorem witness_ReadsHaveNoSideEffects :
    (waiting [.read .w32 0x024, .read .w32 0x024]).pending = [.read .w32 0x024, .read .w32 0x024] := by decide

/-! ### Witnesses: what only certain steps change -/

/-- A command's step: no write to an operand half. -/
theorem witness_OperandsChangeOnlyByHostWrites :
    (waiting [command 0x01000000]).pending.head? ≠ some .reset ∧
      ∀ (off : Nat) (v : Word32), 0x008 ≤ off → off ≤ 0x01C →
        (waiting [command 0x01000000]).pending.head? ≠ some (.write .w32 (State.reset.cfg.base + off) v) := by
  refine ⟨by decide, fun off v h _ e => ?_⟩
  have h0 : (0 : Nat) = 0 + off := (Event.write.inj (Option.some.inj e)).2.1
  omega

theorem witness_SlotsChangeOnlyByAcompile :
    (waiting [command 0x10000000]).pending.head? ≠ some .reset ∧ decode 0x10000000#32 = .instr (.acompile 0) := by
  decide

theorem witness_OperandsChangeOnlyByHostWrites_next : ∃ t, step (waiting [command 0x01000000]) = .next t := ⟨_, rfl⟩

theorem witness_SlotsChangeOnlyByAcompile_next : ∃ t, step (waiting [command 0x10000000]) = .next t := ⟨_, rfl⟩

theorem witness_ConfigurationNeverChanges : ∃ t, step (waiting [.reset]) = .next t := ⟨_, rfl⟩

theorem witness_OutOnlyGrows : ∃ t, step (waiting [.frame (arriving [0, 0] (by decide))]) = .next t := ⟨_, rfl⟩

/-! ### Witnesses: host assembly -/

theorem witness_LiLoadsOperandRegister :
    ∀ x ∈ [OperandReg.opa, .opb, .opc],
      (waiting (programEvents Config.vectors (liStmts x 0x1122334455667788) ++ [.reset])).pending =
        programEvents State.reset.cfg (liStmts x 0x1122334455667788) ++ [.reset] := by decide

end Sys2Proof.Tests
end

section
/-! What every step leaves: the configuration stays (spec/10_state.md R47) and `OUT` only grows (R46). -/

namespace Sys2Proof.Machine

/-- `t` may follow `s`: it has the configuration of `s`, and the events of `s` are the first of its own. -/
structure Follows (s t : State) : Prop where
  cfg : t.cfg = s.cfg
  out : s.out <+: t.out

theorem Follows.of_eq {s t : State} (hc : t.cfg = s.cfg) (ho : t.out = s.out) : Follows s t :=
  ⟨hc, ho ▸ List.prefix_refl _⟩

theorem Follows.refl (s : State) : Follows s s := .of_eq rfl rfl

theorem Follows.trans {s t u : State} (h : Follows s t) (h' : Follows t u) : Follows s u :=
  ⟨h'.cfg.trans h.cfg, h.out.trans h'.out⟩

/-- A completion is the one operation that appends an event. -/
theorem follows_complete (s : State) (i : Nat) (f : FpSlot) : Follows s (complete s i f) :=
  ⟨complete_cfg s i f, complete_out s i f ▸ List.prefix_append _ _⟩

theorem follows_storeAndCheck (s : State) (i : Nat) (f : FpSlot) : Follows s (storeAndCheck s i f) := by
  rcases storeAndCheck_cases s i f with ⟨-, e⟩ | ⟨-, e⟩ <;> rw [e]
  · exact follows_complete s i f
  · exact .of_eq (State.setFp_cfg s i f) (State.setFp_out s i f)

theorem follows_fpStep (s : State) (p : PgnValue) (a : Byte) : Follows s (fpStep s p a) := by
  rcases fpStep_cases s p a with e | ⟨i, -, e⟩ | ⟨i, f, -, -, e⟩ <;> rw [e]
  · exact .refl s
  · exact .of_eq (State.freeFp_cfg s i) (State.freeFp_out s i)
  · exact follows_storeAndCheck s i f

theorem follows_frameArrive (s : State) (t : Word64) (id : Word32) (n : Nat) (w : Word64) :
    Follows s (frameArrive s t id n w) := by
  have hlatch : Follows s (latchFrame s t id n w) := .of_eq (latchFrame_cfg s t id n w) (latchFrame_out s t id n w)
  rcases frameArrive_cases s t id n w with ⟨-, e⟩ | ⟨-, e⟩ <;> rw [e]
  · exact hlatch
  · exact hlatch.trans (follows_fpStep _ _ _)

theorem follows_portArrive (s : State) (f : PortFrame) : Follows s (portArrive s f) := by
  rcases portArrive_cases s f with ⟨-, e⟩ | ⟨-, e⟩ <;> rw [e]
  · exact .refl s
  · exact follows_frameArrive _ _ _ _ _

theorem Effect.follows {s t : State} {w : Word32} (h : Effect s w t) : Follows s t := by
  cases h with
  | fault code => exact .of_eq (State.takeFault_cfg _ _ _) (State.takeFault_out _ _ _)
  | result v => exact .of_eq (State.writeRes_cfg _ _) (State.writeRes_out _ _)
  | slot k a => exact .of_eq (State.setAcc_cfg _ _ _) (State.setAcc_out _ _ _)
  | frame n => exact follows_frameArrive _ _ _ _ _

theorem follows_execWord {s t : State} {w : Word32} (h : execWord w s = .next t) : Follows s t := by
  rcases execWord_cases h with ⟨-, rfl⟩ | ⟨-, he⟩
  · exact .refl _
  · exact he.follows

theorem follows_writeReg (s : State) (r : MmioReg) (v : Word32) : Follows s (writeReg s r v) := by
  rw [writeReg_eq]
  exact .of_eq rfl rfl

/-- Every step keeps the configuration and appends to `OUT`. -/
theorem follows_step {s t : State} (h : step s = .next t) : Follows s t := by
  have htake (rest : List Event) : Follows s { s with pending := rest } := .of_eq rfl rfl
  have hrespond (rest : List Event) (r : BusResponse) : Follows s ({ s with pending := rest }.respond r) :=
    (htake rest).trans (.of_eq (State.respond_cfg _ _) (State.respond_out _ _))
  rcases step_cases h with ⟨-, rfl⟩ | ⟨rest, hread | hrefused | hcmd | hreg | hframe | hreset⟩
  · exact .refl _
  · obtain ⟨_, _, r, -, rfl⟩ := hread
    exact hrespond rest r
  · obtain ⟨_, _, _, -, -, rfl⟩ := hrefused
    exact hrespond rest _
  · obtain ⟨_, _, _, -, -, hexec⟩ := hcmd
    exact (hrespond rest _).trans (follows_execWord hexec)
  · obtain ⟨_, _, v, r, -, -, -, rfl⟩ := hreg
    exact (hrespond rest _).trans (follows_writeReg _ r v)
  · obtain ⟨f, -, rfl⟩ := hframe
    exact (htake rest).trans (follows_portArrive _ f)
  · obtain ⟨-, rfl⟩ := hreset
    exact (htake rest).trans (.of_eq (State.applyReset_cfg _) (State.applyReset_out _))

/-- Settles O58: a step's next state follows its state, so it has the same configuration. -/
theorem configurationNeverChanges : Obligations.ConfigurationNeverChanges :=
  fun _ _ h => (follows_step h).cfg

/-- Settles O59: a step's next state follows its state, so the earlier events are its first. -/
theorem outOnlyGrows : Obligations.OutOnlyGrows :=
  fun _ _ h => (follows_step h).out

end Sys2Proof.Machine
end

section
/-! The register window (spec/20_memory.md R50 to R62): which register stands at an offset, the numbers its words are,
and what an access at an offset of the window does. -/

namespace Sys2Proof.Machine

open Sys2Proof.Claims

/-! ### Words as numbers -/

/-- A concatenation as a number: the left word stands above the right one. -/
theorem toNat_append_eq_add {m n : Nat} (x : BitVec m) (y : BitVec n) :
    (x ++ y).toNat = x.toNat * 2 ^ n + y.toNat := by
  rw [BitVec.toNat_append, ← Nat.shiftLeft_add_eq_or_of_lt y.isLt, Nat.shiftLeft_eq]

theorem low32_toNat (x : Word64) : (low32 x).toNat = bits x.toNat 0 32 := by
  rw [low32, BitVec.extractLsb'_toNat, Nat.shiftRight_eq_div_pow]

theorem high32_toNat (x : Word64) : (high32 x).toNat = bits x.toNat 32 32 := by
  rw [high32, BitVec.extractLsb'_toNat, Nat.shiftRight_eq_div_pow]

theorem eq_ofNat_of_toNat_eq {n v : Nat} {x : BitVec n} (h : x.toNat = v) : x = BitVec.ofNat n v := by
  rw [← h, BitVec.ofNat_toNat, BitVec.setWidth_eq]

theorem low32_eq_ofNat (x : Word64) : low32 x = BitVec.ofNat 32 (bits x.toNat 0 32) :=
  eq_ofNat_of_toNat_eq (low32_toNat x)

theorem high32_eq_ofNat (x : Word64) : high32 x = BitVec.ofNat 32 (bits x.toNat 32 32) :=
  eq_ofNat_of_toNat_eq (high32_toNat x)

theorem withLow32_eq_ofNat (x : Word64) (v : Word32) :
    withLow32 x v = BitVec.ofNat 64 (bits x.toNat 32 32 * 2 ^ 32 + v.toNat) :=
  eq_ofNat_of_toNat_eq (by rw [withLow32, toNat_append_eq_add, high32_toNat])

theorem withHigh32_eq_ofNat (x : Word64) (v : Word32) :
    withHigh32 x v = BitVec.ofNat 64 (v.toNat * 2 ^ 32 + bits x.toNat 0 32) :=
  eq_ofNat_of_toNat_eq (by rw [withHigh32, toNat_append_eq_add, low32_toNat])

/-- Four bytes as one word, the first most significant. -/
theorem fourBytes_eq_ofNat (b0 b1 b2 b3 : Byte) :
    b0 ++ b1 ++ b2 ++ b3 =
      BitVec.ofNat 32 (b0.toNat * 2 ^ 24 + b1.toNat * 2 ^ 16 + b2.toNat * 2 ^ 8 + b3.toNat) := by
  apply eq_ofNat_of_toNat_eq
  simp only [toNat_append_eq_add]
  omega

/-- The high word of a packed payload is its bytes 0 to 3 (R59). -/
theorem high32_pack (b : Nat → Byte) : high32 (pack b) = b 0 ++ b 1 ++ b 2 ++ b 3 := by
  apply BitVec.eq_of_toNat_eq
  simp only [high32_toNat, bits, pack, toNat_append_eq_add]
  omega

/-- The low word of a packed payload is its bytes 4 to 7 (R59). -/
theorem low32_pack (b : Nat → Byte) : low32 (pack b) = b 4 ++ b 5 ++ b 6 ++ b 7 := by
  apply BitVec.eq_of_toNat_eq
  simp only [low32_toNat, bits, pack, toNat_append_eq_add]
  omega

/-- The view of a slot is the number of its descriptor layout (spec/10_state.md R40). -/
theorem accessorWord_eq_ofNat (e : Option Accessor) : accessorWord e = BitVec.ofNat 32 (slotNumber e) := by
  cases e with
  | none => rfl
  | some a =>
    apply eq_ofNat_of_toNat_eq
    simp only [accessorWord, slotNumber, toNat_append_eq_add, BitVec.toNat_ofBool, BitVec.toNat_ofNat]
    omega

/-- Word j of the `MBUF` window is the number of its four bytes, with byte 223 read as 0 (R61). -/
theorem mbufWord_eq_ofNat (s : State) {j : Nat} (hj : j ≤ 55) :
    mbufWord s j = BitVec.ofNat 32
      ((Memory.read s.mbuf (4 * j)).toNat * 2 ^ 24 + (Memory.read s.mbuf (4 * j + 1)).toNat * 2 ^ 16 +
        (Memory.read s.mbuf (4 * j + 2)).toNat * 2 ^ 8 +
        (if j = 55 then 0 else (Memory.read s.mbuf (4 * j + 3)).toNat)) := by
  rw [mbufWord, fourBytes_eq_ofNat]
  by_cases h : j = 55
  · rw [if_pos h, if_neg (show ¬ 4 * j + 3 < Config.maxFpLen by unfold Config.maxFpLen; omega)]
    rfl
  · rw [if_neg h, if_pos (show 4 * j + 3 < Config.maxFpLen by unfold Config.maxFpLen; omega)]

/-! ### The address map -/

/-- No offset names two registers. -/
theorem lookup_namedOffsets : ∀ e ∈ namedOffsets, namedOffsets.lookup e.1 = some e.2 := by decide

/-- The named registers stand in three runs of offsets, with reserved offsets between them. -/
theorem namedOffsets_range : ∀ e ∈ namedOffsets,
    e.1 ≤ 0x02C ∨ (0x040 ≤ e.1 ∧ e.1 ≤ 0x054) ∨ (0x060 ≤ e.1 ∧ e.1 ≤ 0x074) := by decide

/-- Every named register stands at a multiple of 4. -/
theorem namedOffsets_aligned : ∀ e ∈ namedOffsets, e.1 % 4 = 0 := by decide

theorem regAtOffset_below (c : Config) {off : Nat} (h : off < 0x100) :
    regAtOffset c off = namedOffsets.lookup off := by
  rw [regAtOffset, if_neg (by omega), if_neg (by omega)]

theorem regAtOffset_named (c : Config) {off : Nat} {r : MmioReg} (h : (off, r) ∈ namedOffsets) :
    regAtOffset c off = some r := by
  have hrange := namedOffsets_range _ h
  rw [regAtOffset_below c (by omega)]
  exact lookup_namedOffsets _ h

theorem regAtOffset_mbuf (c : Config) {off : Nat} (h : 0x100 ≤ off ∧ off ≤ 0x1DC) :
    regAtOffset c off = some (.mbuf ((off - 0x100) / 4)) := if_pos h

theorem regAtOffset_acc {c : Config} (hc : c.Legal) {off : Nat} (h : 0x200 ≤ off ∧ off < 0x200 + 4 * c.nAcc) :
    regAtOffset c off = some (.acc ((off - 0x200) / 4)) := by
  obtain ⟨-, hacc, -⟩ := hc
  rw [regAtOffset, if_neg (by omega), if_pos (by omega)]

/-- No register stands at a reserved offset or beyond the window (R50, R52). -/
theorem regAtOffset_reserved {c : Config} {off : Nat} (h : ReservedOffset c off) : regAtOffset c off = none := by
  rw [regAtOffset, if_neg (by omega), if_neg (by omega), List.lookup_eq_none_iff]
  intro e he
  have hrange := namedOffsets_range e he
  simp only [bne_iff_ne]
  omega

/-- The registers marked R in the address map (R50). -/
def MmioReg.readOnly : MmioReg → Bool
  | .cmd | .opaLo | .opaHi | .opbLo | .opbHi | .opcLo | .opcHi => false
  | _ => true

theorem writeReg_readOnly (s : State) {r : MmioReg} (h : r.readOnly = true) (v : Word32) : writeReg s r v = s := by
  cases r
  case opaLo | opaHi | opbLo | opbHi | opcLo | opcHi => cases h
  all_goals rfl

theorem MmioReg.ne_cmd_of_readOnly {r : MmioReg} (h : r.readOnly = true) : r ≠ .cmd := by
  rintro rfl
  cases h

/-- A read-only register stands at every word of the named read-only ranges. -/
theorem lookup_namedOffsets_readOnly : ∀ off < 0x078, off % 4 = 0 →
    off = 0x004 ∨ (0x020 ≤ off ∧ off ≤ 0x02C) ∨ (0x040 ≤ off ∧ off ≤ 0x054) ∨ (0x060 ≤ off ∧ off ≤ 0x074) →
      ∃ r ∈ namedOffsets.lookup off, r.readOnly = true := by decide

/-- A read-only register stands at every aligned read-only offset (R50). -/
theorem regAtOffset_readOnly {c : Config} (hc : c.Legal) {off : Nat} (ha : off % 4 = 0) (h : ReadOnlyOffset c off) :
    ∃ r, regAtOffset c off = some r ∧ r.readOnly = true := by
  by_cases hacc : 0x200 ≤ off
  · exact ⟨_, regAtOffset_acc hc (by omega), rfl⟩
  · by_cases hmbuf : 0x100 ≤ off
    · exact ⟨_, regAtOffset_mbuf c (by omega), rfl⟩
    · rw [regAtOffset_below c (by omega)]
      exact lookup_namedOffsets_readOnly off (by omega) ha (by omega)

/-- Each word of a 64-bit register is read from a named register (R54). -/
theorem wideValues_read (s : State) :
    ∀ e ∈ wideValues s, ∃ r, (e.1, r) ∈ namedOffsets ∧ readReg s r = BitVec.ofNat 32 e.2 := by
  simp only [wideValues, List.forall_mem_cons]
  exact
    ⟨⟨.opaLo, by decide, low32_eq_ofNat s.opa⟩, ⟨.opaHi, by decide, high32_eq_ofNat s.opa⟩,
      ⟨.opbLo, by decide, low32_eq_ofNat s.opb⟩, ⟨.opbHi, by decide, high32_eq_ofNat s.opb⟩,
      ⟨.opcLo, by decide, low32_eq_ofNat s.opc⟩, ⟨.opcHi, by decide, high32_eq_ofNat s.opc⟩,
      ⟨.resLo, by decide, low32_eq_ofNat s.res⟩, ⟨.resHi, by decide, high32_eq_ofNat s.res⟩,
      ⟨.ftimeLo, by decide, low32_eq_ofNat s.ftime⟩, ⟨.ftimeHi, by decide, high32_eq_ofNat s.ftime⟩,
      ⟨.fwordLo, by decide, (low32_pack _).trans (fourBytes_eq_ofNat _ _ _ _)⟩,
      ⟨.fwordHi, by decide, (high32_pack _).trans (fourBytes_eq_ofNat _ _ _ _)⟩,
      ⟨.mtimeLo, by decide, low32_eq_ofNat s.mtime⟩, ⟨.mtimeHi, by decide, high32_eq_ofNat s.mtime⟩,
      List.forall_mem_nil _⟩

/-- Each operand half is written through a named register other than `CMD` (R54). -/
theorem operandWrites_write (s : State) (v : Word32) :
    ∀ e ∈ operandWrites s v, ∃ r, (e.1, r) ∈ namedOffsets ∧ r ≠ .cmd ∧ writeReg s r v = e.2 := by
  simp only [operandWrites, List.forall_mem_cons, ← withLow32_eq_ofNat, ← withHigh32_eq_ofNat]
  exact
    ⟨⟨.opaLo, by decide, by decide, rfl⟩, ⟨.opaHi, by decide, by decide, rfl⟩,
      ⟨.opbLo, by decide, by decide, rfl⟩, ⟨.opbHi, by decide, by decide, rfl⟩,
      ⟨.opcLo, by decide, by decide, rfl⟩, ⟨.opcHi, by decide, by decide, rfl⟩, List.forall_mem_nil _⟩

/-! ### Accesses to the window -/

section
variable {s : State} {width : Width} {addr off : Nat} {v : Word32} {r : MmioReg} {rest : List Event}

/-- An access of another width or at a misaligned offset reaches no register (R51). -/
theorem regAtAccess_odd (c : Config) (h : width ≠ .w32 ∨ off % 4 ≠ 0) : regAtAccess c width (c.base + off) = none := by
  rw [regAtAccess_offset, if_neg (by rintro ⟨hw, ho⟩; exact h.elim (· hw) (· ho))]

theorem regAtAccess_word (c : Config) (h : off % 4 = 0) : regAtAccess c .w32 (c.base + off) = regAtOffset c off := by
  rw [regAtAccess_offset, if_pos ⟨rfl, h⟩]

theorem regAtAccess_named (c : Config) {off : Nat} {r : MmioReg} (h : (off, r) ∈ namedOffsets) :
    regAtAccess c .w32 (c.base + off) = some r :=
  (regAtAccess_word c (namedOffsets_aligned _ h)).trans (regAtOffset_named c h)

/-- What a register reads does not depend on the steps still to come. -/
theorem readReg_pending (s : State) (rest : List Event) (r : MmioReg) :
    readReg { s with pending := rest } r = readReg s r := by
  cases r <;> rfl

theorem step_read_refused (h : regAtAccess s.cfg width addr = none) (hp : s.pending = .read width addr :: rest) :
    step s = .next (responded s rest .busError) := by
  rw [step_read hp]
  simp only [hostRead, h, State.respond]

theorem step_write_refused (h : regAtAccess s.cfg width addr = none) (hp : s.pending = .write width addr v :: rest) :
    step s = .next (responded s rest .busError) := by
  rw [step_write hp]
  simp only [hostWrite, h, State.respond]

theorem step_read_reg (h : regAtAccess s.cfg width addr = some r) (hp : s.pending = .read width addr :: rest) :
    step s = .next (responded s rest (.data (readReg s r))) := by
  have hread := hostRead_of_reg (s := { s with pending := rest }) h
  rw [readReg_pending] at hread
  exact (step_read hp).trans (congrArg _ hread)

theorem step_write_reg (h : regAtAccess s.cfg width addr = some r) (hr : r ≠ .cmd)
    (hp : s.pending = .write width addr v :: rest) :
    step s = .next (writeReg (responded s rest .done) r v) := by
  rw [step_write hp]
  unfold hostWrite
  split
  · next hn => cases hn.symm.trans h
  · next hc => exact absurd (Option.some.inj (h.symm.trans hc)) hr
  · next r' _ hr' =>
    cases Option.some.inj (h.symm.trans hr')
    rfl

/-- A write to an operand half leaves the state `operandWrites` gives (R54). -/
theorem step_operandWrite {s t : State} {off : Nat} {v : Word32} {rest : List Event}
    (hp : s.pending = .write .w32 (s.cfg.base + off) v :: rest)
    (h : (off, t) ∈ operandWrites (responded s rest .done) v) : step s = .next t := by
  obtain ⟨r, hr, hne, ht⟩ := operandWrites_write _ v _ h
  rw [step_write_reg (regAtAccess_named s.cfg hr) hne hp, ht]

end

end Sys2Proof.Machine
end

section
/-! The window's statements: refused accesses, ignored writes, the words of the wide registers, of the slot views and of
the message buffer. -/

namespace Sys2Proof.Machine

open Sys2Proof.Claims

/-- Settles O48: such an access reaches no register. -/
theorem oddAccessesGetBusErrors : Obligations.OddAccessesGetBusErrors := fun s _ _ _ _ hodd =>
  ⟨step_read_refused (regAtAccess_odd s.cfg hodd), step_write_refused (regAtAccess_odd s.cfg hodd)⟩

/-- Settles O49: no register stands at such an offset. -/
theorem reservedOffsetsGetBusErrors : Obligations.ReservedOffsetsGetBusErrors := by
  intro s off v rest ha hres
  have hnone : regAtAccess s.cfg .w32 (s.cfg.base + off) = none :=
    (regAtAccess_word s.cfg ha).trans (regAtOffset_reserved hres)
  exact ⟨step_read_refused hnone, step_write_refused hnone⟩

/-- Settles O50: the offset has a read-only register, and a write to one leaves the state. -/
theorem readOnlyRegistersIgnoreWrites : Obligations.ReadOnlyRegistersIgnoreWrites := by
  intro s off v rest hc
  refine ⟨fun ha hro hp => ?_, fun hp => step_read_reg (regAtAccess_cmd s.cfg) hp⟩
  obtain ⟨r, hreg, hr⟩ := regAtOffset_readOnly hc ha hro
  rw [step_write_reg ((regAtAccess_word s.cfg ha).trans hreg) (MmioReg.ne_cmd_of_readOnly hr) hp,
    writeReg_readOnly _ hr]

/-- Settles O51: each half is a named register, whose word or write is the half of the 64-bit register. -/
theorem wideRegistersAreTwoWords : Obligations.WideRegistersAreTwoWords := by
  refine ⟨fun s off v rest hmem hp => ?_, fun _ _ _ _ _ => step_operandWrite⟩
  obtain ⟨r, hr, hword⟩ := wideValues_read s _ hmem
  rw [step_read_reg (regAtAccess_named s.cfg hr) hp, hword]

/-- Settles O53: the word at `0x200 + 4k` is the view of slot k. -/
theorem slotWindowGivesSlotViews : Obligations.SlotWindowGivesSlotViews := by
  intro s k rest hc hk hp
  have hreg : regAtAccess s.cfg .w32 (s.cfg.base + (0x200 + 4 * k)) = some (.acc k) := by
    rw [regAtAccess_word s.cfg (by omega), regAtOffset_acc hc (by omega)]
    congr 2
    omega
  rw [step_read_reg hreg hp, readReg, accessorWord_eq_ofNat]

/-- Settles O54: the word at `0x100 + 4j` is word j of the message buffer. -/
theorem mbufWindowGivesMessageBytes : Obligations.MbufWindowGivesMessageBytes := by
  intro s j rest hj hp
  have hreg : regAtAccess s.cfg .w32 (s.cfg.base + (0x100 + 4 * j)) = some (.mbuf j) := by
    rw [regAtAccess_word s.cfg (by omega), regAtOffset_mbuf s.cfg (by omega)]
    congr 2
    omega
  rw [step_read_reg hreg hp, readReg, mbufWord_eq_ofNat s hj]

end Sys2Proof.Machine
end

section
/-! Illegal command words (spec/30_encoding.md R86, R87): which words the decoder rejects, on the number of the word, and
what a step that executes one leaves. -/

namespace Sys2Proof.Machine

open Sys2Proof.Claims

/-! ### The fields of a command word as numbers -/

theorem extractLsb'_toNat_eq_bits {n : Nat} (w : BitVec n) (lo len : Nat) :
    (w.extractLsb' lo len).toNat = bits w.toNat lo len := by
  rw [BitVec.extractLsb'_toNat, Nat.shiftRight_eq_div_pow]

theorem extractLsb'_eq_zero_iff {n : Nat} (w : BitVec n) (lo len : Nat) :
    w.extractLsb' lo len = 0 ↔ bits w.toNat lo len = 0 := by
  rw [← BitVec.toNat_inj, extractLsb'_toNat_eq_bits, BitVec.ofNat_eq_ofNat, BitVec.toNat_zero]

theorem opcodeField_toNat (w : Word32) : (opcodeField w).toNat = opcodeNumber w := extractLsb'_toNat_eq_bits w 24 8

theorem opcodeField_eq_ofNat (w : Word32) : opcodeField w = BitVec.ofNat 8 (opcodeNumber w) :=
  eq_ofNat_of_toNat_eq (opcodeField_toNat w)

/-! ### The words the decoder rejects

`decode` has nine arms of format Z, two of format S (10, 11), one of format F (12), and the undefined opcodes (13). -/

/-- A format rejects a word whose reserved bits are not all 0, and for no other reason. -/
theorem ite_instr_eq_illegal_iff {c : Prop} [Decidable c] {i : Instr} {r : Illegal} :
    (if c then Decoded.instr i else .illegal .reservedBits) = .illegal r ↔ r = .reservedBits ∧ ¬ c := by
  by_cases hc : c
  · simp [hc]
  · simp [hc, eq_comm]

theorem formatZ_eq_illegal_iff {w : Word32} {i : Instr} {r : Illegal} :
    formatZ w i = .illegal r ↔ r = .reservedBits ∧ bits w.toNat 0 24 ≠ 0 := by
  rw [formatZ, ite_instr_eq_illegal_iff, extractLsb'_eq_zero_iff]

theorem formatS_eq_illegal_iff {w : Word32} {mk : Nat → Instr} {r : Illegal} :
    formatS w mk = .illegal r ↔ r = .reservedBits ∧ bits w.toNat 0 16 ≠ 0 := by
  rw [formatS, ite_instr_eq_illegal_iff, extractLsb'_eq_zero_iff]

theorem formatF_eq_illegal_iff {w : Word32} {mk : Nat → Instr} {r : Illegal} :
    formatF w mk = .illegal r ↔ r = .reservedBits ∧ bits w.toNat 4 20 ≠ 0 := by
  rw [formatF, ite_instr_eq_illegal_iff, extractLsb'_eq_zero_iff]

/-- The decoder finds the opcode undefined exactly where R87 does. -/
theorem decode_eq_illegalOpcode_iff (w : Word32) :
    decode w = .illegal .illegalOpcode ↔ UndefinedOpcode (opcodeNumber w) := by
  have hlt : opcodeNumber w < 2 ^ 8 := Nat.mod_lt _ (by decide)
  rw [decode, opcodeField_toNat]
  split
  case h_13 => simp only [imp_false, true_iff] at *; omega
  all_goals
    simp only [formatZ_eq_illegal_iff, formatS_eq_illegal_iff, formatF_eq_illegal_iff, reduceCtorEq, false_and,
      false_iff]
    omega

/-- The decoder finds reserved bits set exactly where R86 does. -/
theorem decode_eq_reservedBits_iff (w : Word32) : decode w = .illegal .reservedBits ↔ ReservedBitsSet w := by
  rw [decode, opcodeField_toNat]
  split
  case h_10 | h_11 => simp only [formatS_eq_illegal_iff, true_and]; omega
  case h_12 => simp only [formatF_eq_illegal_iff, true_and]; omega
  case h_13 => simp only [Decoded.illegal.injEq, reduceCtorEq, false_iff, imp_false] at *; omega
  all_goals simp only [formatZ_eq_illegal_iff, true_and]; omega

/-! ### Executing an illegal word -/

theorem takeFault_eq_faulted (s : State) (code : FaultCode) (w : Word32) :
    s.takeFault code (opcodeField w) = faulted s (faultCodeByte code).toNat (opcodeNumber w) := by
  rw [State.takeFault, opcodeField_eq_ofNat, faulted, BitVec.ofNat_toNat, BitVec.setWidth_eq]

theorem execWord_illegal {s : State} {w : Word32} {r : Illegal} (hs : s.Running) (h : decode w = .illegal r) :
    execWord w s = .next (s.takeFault (illegalFault r) (opcodeField w)) := by
  simp only [execWord, h, whenRunning_of_running hs]

/-- A step that executes an illegal word in a running block enters the fault state and has no other effect. -/
theorem step_illegal {s : State} {w : Word32} {rest : List Event} {r : Illegal} (hs : s.Running)
    (hp : s.pending = .write .w32 s.cfg.base w :: rest) (h : decode w = .illegal r) :
    step s = .next
      (faulted (responded s rest .done) (faultCodeByte (illegalFault r)).toNat (opcodeNumber w)) := by
  have hs' : ({ s with pending := rest }.respond .done).Running := hs
  rw [step_command hp, execWord_illegal hs' h, takeFault_eq_faulted]
  rfl

/-- Settles O4: the decoder answers that the opcode is illegal. -/
theorem undefinedOpcodeFaults : Obligations.UndefinedOpcodeFaults :=
  fun _ w _ hs hp hop => step_illegal hs hp ((decode_eq_illegalOpcode_iff w).2 hop)

/-- Settles O5: the decoder answers that reserved bits are set. -/
theorem reservedBitsFault : Obligations.ReservedBitsFault :=
  fun _ w _ hs hp hres => step_illegal hs hp ((decode_eq_reservedBits_iff w).2 hres)

end Sys2Proof.Machine
end

section
/-! The codec commands (spec/40_pgn_codec.md): what each writes to `RES`, as a function of the low words of its operands,
and those words' fields as numbers. -/

namespace Sys2Proof.Machine

open Sys2Proof.Claims

/-! ### Fields, PGNs and identifiers as numbers -/

theorem low32_eq_of_bits_eq {x y : Word64} (h : bits x.toNat 0 32 = bits y.toNat 0 32) : low32 x = low32 y := by
  rw [low32_eq_ofNat, h, ← low32_eq_ofNat]

theorem extractLsb'_low32 (x : Word64) {lo len : Nat} (h : lo + len ≤ 32) :
    (low32 x).extractLsb' lo len = x.extractLsb' lo len := BitVec.extractLsb'_extractLsb'_of_le h

/-- A field of the identifier in a register's low word, zero-extended, is that field of the register. -/
theorem setWidth_low32_field (x : Word64) {lo len : Nat} (h : lo + len ≤ 32) :
    ((low32 x).extractLsb' lo len).setWidth 64 = BitVec.ofNat 64 (bits x.toNat lo len) := by
  rw [extractLsb'_low32 x h, ← BitVec.ofNat_toNat, extractLsb'_toNat_eq_bits]

theorem pduFormat_lt_pdu2Min_iff (id : Word32) : pduFormat id < Config.pdu2Min ↔ bits id.toNat 16 8 < 0xF0 := by
  rw [BitVec.lt_def, pduFormat, extractLsb'_toNat_eq_bits]
  rfl

/-- The PGN of an identifier is the number R103 gives, in both PDU branches. -/
theorem pgnOf_toNat (id : Word32) : (pgnOf id).toNat = pgnNumber id.toNat := by
  by_cases hpf : bits id.toNat 16 8 < 0xF0
  · rw [pgnOf, if_pos ((pduFormat_lt_pdu2Min_iff id).2 hpf), pgnNumber, if_pos hpf]
    simp only [toNat_append_eq_add, dataPage, pduFormat, extractLsb'_toNat_eq_bits, BitVec.toNat_ofNat]
    omega
  · rw [pgnOf, if_neg (mt (pduFormat_lt_pdu2Min_iff id).1 hpf), pgnNumber, if_neg hpf]
    simp only [toNat_append_eq_add, dataPage, pduFormat, pduSpecific, extractLsb'_toNat_eq_bits]
    omega

/-- The PGN reads no bit of a register above its low word. -/
theorem pgnOf_low32_toNat (x : Word64) : (pgnOf (low32 x)).toNat = pgnNumber x.toNat := by
  have hbits (lo len : Nat) (h : lo + len ≤ 32) : bits (bits x.toNat 0 32) lo len = bits x.toNat lo len := by
    rw [← low32_toNat, ← extractLsb'_toNat_eq_bits, extractLsb'_low32 x h, extractLsb'_toNat_eq_bits]
  rw [pgnOf_toNat, low32_toNat, pgnNumber, hbits 16 8 (by decide), hbits 24 1 (by decide), hbits 8 8 (by decide)]

/-- The identifier built for a PGN is its low 17 bits above the source address 0xFE (R104). -/
theorem canIdOf_low32_toNat (x : Word64) :
    (canIdOf (low32 x)).toNat = ((x.toNat &&& 0x1FFFF) <<< 8) ||| 0xFE := by
  have hmask : x.toNat &&& 0x1FFFF = x.toNat % 2 ^ 17 := Nat.and_two_pow_sub_one_eq_mod x.toNat 17
  rw [hmask, ← Nat.shiftLeft_add_eq_or_of_lt (by decide : 0xFE < 2 ^ 8), Nat.shiftLeft_eq, canIdOf]
  simp only [toNat_append_eq_add, extractLsb'_toNat_eq_bits, low32_toNat, bits, Config.defaultSa,
    BitVec.toNat_ofNat]
  omega

/-! ### What a codec command writes -/

/-- The result of a codec command on the low words `a` of `OPA` and `b` of `OPB` (R106 to R114); the other commands have
no result of this form. -/
def codecResult (i : Instr) (a b : Word32) : Word64 :=
  match i with
  | .sa => (sourceAddress a).setWidth 64
  | .ps => (pduSpecific a).setWidth 64
  | .pf => (pduFormat a).setWidth 64
  | .dp => (dataPage a).setWidth 64
  | .edp => (extendedDataPage a).setWidth 64
  | .prio => (priority a).setWidth 64
  | .pgn => (pgnOf a).setWidth 64
  | .canid => (canIdOf a).setWidth 64
  | .samepgn => samePgn a b
  | .acompile _ | .acall _ | .frameIn _ => 0

/-- Only `SAMEPGN` reads `OPB`. -/
theorem codecResult_congr {i : Instr} {a b c : Word32} (h : i = .samepgn → b = c) :
    codecResult i a b = codecResult i a c := by
  cases i with
  | samepgn => rw [h rfl]
  | _ => rfl

section
variable {i : Instr} {s t : State} {w : Word32} {v : Word64}

/-- A codec command writes its result while the block runs and is ignored while it is halted. -/
theorem exec_codec (hi : i ∈ codecCommands) (s : State) :
    exec i s = whenRunning s fun s => s.writeRes (codecResult i (low32 s.opa) (low32 s.opb)) := by
  fin_cases hi <;> rfl

theorem exec_codec_of_halted (hi : i ∈ codecCommands) (hs : s.status.fault = true) : exec i s = .next s := by
  rw [exec_codec hi, whenRunning_of_halted hs]

theorem exec_codec_of_running (hi : i ∈ codecCommands) (hs : s.Running)
    (hv : codecResult i (low32 s.opa) (low32 s.opb) = v) : exec i s = .next { s with res := v } := by
  rw [exec_codec hi, whenRunning_of_running hs, hv, State.writeRes]

theorem res_of_exec_codec (hi : i ∈ codecCommands) (hs : s.Running) (h : exec i s = .next t) :
    t.res = codecResult i (low32 s.opa) (low32 s.opb) := by
  rw [exec_codec_of_running hi hs rfl] at h
  cases h
  rfl

/-! ### Their words -/

/-- Every codec command is format Z (R82, R105). -/
theorem encode_codec : ∀ i ∈ codecCommands, encode i = opcodeOf i ++ 0#24 := by decide

theorem opcodeOf_codec_range : ∀ i ∈ codecCommands, 1 ≤ (opcodeOf i).toNat ∧ (opcodeOf i).toNat ≤ 9 := by decide

theorem decode_codec (hi : i ∈ codecCommands) (ho : opcodeNumber w = (opcodeOf i).toNat)
    (hz : bits w.toNat 0 24 = 0) : decode w = .instr i := by
  have hformat (j : Instr) : formatZ w j = .instr j := if_pos ((extractLsb'_eq_zero_iff w 0 24).2 hz)
  rw [decode, opcodeField_toNat, ho]
  fin_cases hi <;> exact hformat _

theorem execWord_codec (hi : i ∈ codecCommands) (ho : opcodeNumber w = (opcodeOf i).toNat)
    (hz : bits w.toNat 0 24 = 0) : execWord w s = exec i s := by
  simp only [execWord, decode_codec hi ho hz]

theorem execWord_codec_reserved (hi : i ∈ codecCommands) (hs : s.Running)
    (ho : opcodeNumber w = (opcodeOf i).toNat) (hz : bits w.toNat 0 24 ≠ 0) :
    execWord w s = .next (faulted s 0x02 (opcodeNumber w)) := by
  obtain ⟨hlo, hhi⟩ := opcodeOf_codec_range i hi
  have hdecode : decode w = .illegal .reservedBits :=
    (decode_eq_reservedBits_iff w).2 (.inl ⟨ho ▸ hlo, ho ▸ hhi, hz⟩)
  rw [execWord_illegal hs hdecode, takeFault_eq_faulted]
  rfl

end

/-! ### The codec's statements -/

/-- Settles O7: the result of each is one field of the low word of `OPA`. -/
theorem fieldCommandsGiveTheirFields : Obligations.FieldCommandsGiveTheirFields :=
  ⟨by decide, fun s hs =>
    ⟨exec_codec_of_running (by decide) hs (setWidth_low32_field s.opa (by decide : 0 + 8 ≤ 32)),
      exec_codec_of_running (by decide) hs (setWidth_low32_field s.opa (by decide : 8 + 8 ≤ 32)),
      exec_codec_of_running (by decide) hs (setWidth_low32_field s.opa (by decide : 16 + 8 ≤ 32)),
      exec_codec_of_running (by decide) hs (setWidth_low32_field s.opa (by decide : 24 + 1 ≤ 32)),
      exec_codec_of_running (by decide) hs (setWidth_low32_field s.opa (by decide : 25 + 1 ≤ 32)),
      exec_codec_of_running (by decide) hs (setWidth_low32_field s.opa (by decide : 26 + 2 ≤ 32))⟩⟩

/-- Settles O8: the result is the PGN of the low word of `OPA`. -/
theorem pgnCommandGivesPgn : Obligations.PgnCommandGivesPgn := by
  refine ⟨by decide, fun s hs => exec_codec_of_running (by decide) hs ?_⟩
  rw [codecResult, ← BitVec.ofNat_toNat, pgnOf_low32_toNat]

/-- Settles O9: the result is the identifier built from the low word of `OPA`. -/
theorem canidCommandGivesIdentifier : Obligations.CanidCommandGivesIdentifier := by
  refine ⟨by decide, fun s hs => exec_codec_of_running (by decide) hs ?_⟩
  rw [codecResult, ← BitVec.ofNat_toNat, canIdOf_low32_toNat]

/-- Settles O10: two PGNs are equal exactly where their numbers are. -/
theorem samepgnCommandComparesPgns : Obligations.SamepgnCommandComparesPgns := by
  refine ⟨by decide, fun s hs => exec_codec_of_running (by decide) hs ?_⟩
  simp only [codecResult, samePgn, ← BitVec.toNat_inj, pgnOf_low32_toNat]

/-- Settles O11: a codec command's effect is its result in `RES`, a function of its operands' low words alone. -/
theorem codecCommandsArePure : Obligations.CodecCommandsArePure := by
  intro i hi
  refine ⟨encode_codec i hi, fun s hs => ⟨_, exec_codec_of_running hi hs rfl⟩, fun s => exec_codec_of_halted hi,
    fun s t s' t' hs ht hopa hopb hs' ht' => ?_, fun s t w hs ho ht => ⟨fun hz => ?_, fun hz => ?_⟩⟩
  · rw [res_of_exec_codec hi hs hs', res_of_exec_codec hi ht ht', low32_eq_of_bits_eq hopa,
      codecResult_congr fun h => low32_eq_of_bits_eq (hopb h)]
  · rw [execWord_codec_reserved hi hs ho hz] at ht
    cases ht
    rfl
  · rw [execWord_codec hi ho hz, exec_codec_of_running hi hs rfl] at ht
    cases ht
    exact hs

end Sys2Proof.Machine
end

section
/-! `ACOMPILE` and `ACALL` (spec/41_bit_accessor.md R131, R140 to R142): their words, which descriptor words compile and
to what, and what each command does to a running block. -/

namespace Sys2Proof.Machine

open Sys2Proof.Claims

/-! ### Format-S words -/

theorem decode_acompileOpcode {w : Word32} (h : opcodeNumber w = 0x10) : decode w = formatS w .acompile := by
  rw [decode, opcodeField_toNat, h]
  rfl

theorem decode_acallOpcode {w : Word32} (h : opcodeNumber w = 0x11) : decode w = formatS w .acall := by
  rw [decode, opcodeField_toNat, h]
  rfl

theorem formatS_of_reserved_zero {w : Word32} (mk : Nat → Instr) (h : bits w.toNat 0 16 = 0) :
    formatS w mk = .instr (mk (bits w.toNat 16 8)) := by
  rw [formatS, if_pos ((extractLsb'_eq_zero_iff w 0 16).2 h), slotField, extractLsb'_toNat_eq_bits]

section
variable {op k : Nat} (hop : op < 2 ^ 8) (hk : k ≤ 255)
include hop hk

/-- The word `OPCODE << 24 | SLOT << 16` of R140 as a sum. -/
theorem slotWord_toNat : (BitVec.ofNat 32 (op * 2 ^ 24 ||| k <<< 16)).toNat = op * 2 ^ 24 + k * 2 ^ 16 := by
  have hlt : k <<< 16 < 2 ^ 24 := by rw [Nat.shiftLeft_eq]; omega
  rw [← Nat.shiftLeft_eq op, ← Nat.shiftLeft_add_eq_or_of_lt hlt, Nat.shiftLeft_eq, Nat.shiftLeft_eq,
    BitVec.toNat_ofNat]
  omega

theorem opcodeNumber_slotWord : opcodeNumber (BitVec.ofNat 32 (op * 2 ^ 24 ||| k <<< 16)) = op := by
  rw [opcodeNumber, bits, slotWord_toNat hop hk]
  omega

theorem formatS_slotWord (mk : Nat → Instr) :
    formatS (BitVec.ofNat 32 (op * 2 ^ 24 ||| k <<< 16)) mk = .instr (mk k) := by
  have hreserved : bits (op * 2 ^ 24 + k * 2 ^ 16) 0 16 = 0 := by rw [bits]; omega
  have hslot : bits (op * 2 ^ 24 + k * 2 ^ 16) 16 8 = k := by rw [bits]; omega
  rw [← slotWord_toNat hop hk] at hreserved hslot
  rw [formatS_of_reserved_zero mk hreserved, hslot]

end

/-! ### Descriptor words -/

theorem getLsbD_eq_decide_bits {n : Nat} (w : BitVec n) (i : Nat) : w.getLsbD i = decide (bits w.toNat i 1 = 1) :=
  Nat.testBit_eq_decide_div_mod_eq

theorem sourceOfCode_sourceCode (src : Source) : sourceOfCode (sourceCode src) = some src := by
  cases src <;> rfl

/-- Code 3 names no source, every other code one (spec/20_memory.md R58). -/
theorem sourceOfCode_cases (c : BitVec 2) :
    (c.toNat = 3 ∧ sourceOfCode c = none) ∨ ∃ src, c = sourceCode src := by
  match c with
  | 0 => exact .inr ⟨.frame, rfl⟩
  | 1 => exact .inr ⟨.msg, rfl⟩
  | 2 => exact .inr ⟨.opb, rfl⟩
  | 3 => exact .inl ⟨rfl, rfl⟩

theorem sourceCode_toNat_ne_three (src : Source) : (sourceCode src).toNat ≠ 3 := by
  cases src <;> decide

theorem sourceCap_eq (src : Source) : sourceCap src = if (sourceCode src).toNat = 1 then 223 else 8 := by
  cases src <;> rfl

section
variable {d : Word32} {src : Source} (hsrc : d.extractLsb' 28 2 = sourceCode src)
include hsrc

theorem sourceCode_toNat_eq_bits : (sourceCode src).toNat = bits d.toNat 28 2 := by
  rw [← hsrc, extractLsb'_toNat_eq_bits]

theorem descriptorFields_holds : HoldsDescriptor (descriptorFields d src) d.toNat :=
  ⟨extractLsb'_toNat_eq_bits d 0 16, extractLsb'_toNat_eq_bits d 16 7, getLsbD_eq_decide_bits d 24,
    getLsbD_eq_decide_bits d 25, getLsbD_eq_decide_bits d 26, sourceCode_toNat_eq_bits hsrc⟩

/-- A word that names a source is legal where its reserved bits are 0 and its fields within their limits. -/
theorem legalDescriptor_iff_inLimits :
    LegalDescriptor d.toNat ↔
      (d.getLsbD 23 || d.getLsbD 27 || d.getLsbD 30 || d.getLsbD 31) = false ∧
        (descriptorFields d src).inLimits = true := by
  obtain ⟨hstart, hlen, -, -, hw64, hcode⟩ := descriptorFields_holds hsrc
  have hcap : sourceCap (descriptorFields d src).src = if bits d.toNat 28 2 = 1 then 223 else 8 :=
    hcode ▸ sourceCap_eq _
  have hnamed : bits d.toNat 28 2 ≠ 3 := hcode ▸ sourceCode_toNat_ne_three _
  have hbit (i : Nat) : bits d.toNat i 1 = 0 ↔ bits d.toNat i 1 ≠ 1 := by simp only [bits]; omega
  have htop : bits d.toNat 30 2 = 0 ↔ bits d.toNat 30 1 ≠ 1 ∧ bits d.toNat 31 1 ≠ 1 := by
    simp only [bits]
    omega
  simp only [Accessor.inLimits, Bool.and_eq_true, decide_eq_true_iff, Bool.or_eq_false_iff, getLsbD_eq_decide_bits,
    decide_eq_false_iff_not, hstart, hlen, hw64, accessorWidth, hcap, LegalDescriptor, hbit 23,
    hbit 27, htop]
  tauto

theorem compileDescriptor_of_source :
    compileDescriptor d = if LegalDescriptor d.toNat then some (descriptorFields d src) else none := by
  rw [compileDescriptor, hsrc, sourceOfCode_sourceCode]
  simp only [legalDescriptor_iff_inLimits hsrc]
  cases d.getLsbD 23 || d.getLsbD 27 || d.getLsbD 30 || d.getLsbD 31 <;> simp

end

theorem compileDescriptor_legal {d : Word32} (h : LegalDescriptor d.toNat) :
    ∃ a, HoldsDescriptor a d.toNat ∧ compileDescriptor d = some a := by
  rcases sourceOfCode_cases (d.extractLsb' 28 2) with ⟨hthree, -⟩ | ⟨src, hsrc⟩
  · obtain ⟨-, -, -, hne, -⟩ := h
    exact absurd (extractLsb'_toNat_eq_bits d 28 2 ▸ hthree) hne
  · exact ⟨_, descriptorFields_holds hsrc, (compileDescriptor_of_source hsrc).trans (if_pos h)⟩

theorem compileDescriptor_illegal {d : Word32} (h : ¬ LegalDescriptor d.toNat) : compileDescriptor d = none := by
  rcases sourceOfCode_cases (d.extractLsb' 28 2) with ⟨-, hnone⟩ | ⟨src, hsrc⟩
  · rw [compileDescriptor, hnone, ite_self]
  · rw [compileDescriptor_of_source hsrc, if_neg h]

/-! ### The commands on a running block -/

section
variable {s : State} {k : Nat} {a : Accessor} (hs : s.Running)
include hs

theorem exec_acompile_badSlot (hk : s.cfg.nAcc ≤ k) : exec (.acompile k) s = .next (faulted s 0x03 0x10) := by
  rw [exec, execAcompile, whenRunning_of_running hs, compileSlot, if_pos hk]
  rfl

theorem exec_acompile_badDescriptor (hk : k < s.cfg.nAcc) (hd : compileDescriptor (low32 s.opa) = none) :
    exec (.acompile k) s = .next (faulted s 0x04 0x10) := by
  rw [exec, execAcompile, whenRunning_of_running hs, compileSlot, if_neg (Nat.not_le.2 hk), hd]
  rfl

theorem exec_acompile_legal (hk : k < s.cfg.nAcc) (hd : compileDescriptor (low32 s.opa) = some a) :
    exec (.acompile k) s = .next (s.setAcc k a) := by
  rw [exec, execAcompile, whenRunning_of_running hs, compileSlot, if_neg (Nat.not_le.2 hk), hd]

theorem exec_acall_badSlot (hk : s.cfg.nAcc ≤ k) : exec (.acall k) s = .next (faulted s 0x03 0x11) := by
  rw [exec, execAcall, whenRunning_of_running hs, callSlot, if_pos hk]
  rfl

theorem exec_acall_empty (hk : k < s.cfg.nAcc) (ha : s.accAt k = none) :
    exec (.acall k) s = .next (faulted s 0x05 0x11) := by
  rw [exec, execAcall, whenRunning_of_running hs, callSlot, if_neg (Nat.not_le.2 hk), ha]
  rfl

theorem exec_acall_range (hk : k < s.cfg.nAcc) (ha : s.accAt k = some a)
    (hr : 8 * s.sourceLen a.src < a.start.toNat + a.len.toNat) :
    exec (.acall k) s = .next (faulted s 0x06 0x11) := by
  simp only [exec, execAcall, whenRunning_of_running hs, callSlot, if_neg (Nat.not_le.2 hk), ha, if_pos hr]
  rfl

theorem exec_acall_field (hk : k < s.cfg.nAcc) (ha : s.accAt k = some a)
    (hr : a.start.toNat + a.len.toNat ≤ 8 * s.sourceLen a.src) :
    exec (.acall k) s = .next (s.writeRes (s.accessorValue a)) := by
  simp only [exec, execAcall, whenRunning_of_running hs, callSlot, if_neg (Nat.not_le.2 hk), ha,
    if_neg (Nat.not_lt.2 hr)]

end

theorem mem_acc_of_accAt {s : State} {k : Nat} {a : Accessor} (h : s.accAt k = some a) : some a ∈ s.acc := by
  rw [State.accAt, List.getD_eq_getElem?_getD] at h
  cases hk : s.acc[k]? with
  | none => rw [hk] at h; cases h
  | some e => rw [hk] at h; exact h ▸ List.mem_of_getElem? hk

/-- A compiled slot over a source of fixed length never reaches past it (R142). -/
theorem accessor_within_fixedSource {s : State} {a : Accessor} (ha : a.inLimits = true) (hsrc : a.src ≠ .msg) :
    a.start.toNat + a.len.toNat ≤ 8 * s.sourceLen a.src := by
  have hcap : sourceCap a.src = s.sourceLen a.src := by
    cases h : a.src with
    | msg => exact absurd h hsrc
    | frame | opb => rfl
  simp only [Accessor.inLimits, Bool.and_eq_true, decide_eq_true_iff, hcap] at ha
  exact ha.2

/-- Settles O14: a running block compiles exactly the legal descriptor words. -/
theorem acompileStoresDescriptor : Obligations.AcompileStoresDescriptor := by
  refine ⟨fun k hk => ?_, fun s k hs => ⟨exec_acompile_badSlot hs, fun hk hd => ?_, fun hk hd => ?_⟩⟩
  · exact (decode_acompileOpcode (opcodeNumber_slotWord (op := 0x10) (by decide) hk)).trans
      (formatS_slotWord (op := 0x10) (by decide) hk .acompile)
  · rw [← low32_toNat] at hd
    exact exec_acompile_badDescriptor hs hk (compileDescriptor_illegal hd)
  · rw [← low32_toNat] at hd ⊢
    obtain ⟨a, hholds, ha⟩ := compileDescriptor_legal hd
    exact ⟨a, hholds, exec_acompile_legal hs hk ha⟩

/-- Settles O16: the checks in order, and the field of the first slot that passes them. -/
theorem acallGivesField : Obligations.AcallGivesField := by
  refine ⟨fun k hk => ?_, fun s k hs => ⟨exec_acall_badSlot hs, exec_acall_empty hs, fun a hk ha =>
    ⟨exec_acall_range hs hk ha, exec_acall_field hs hk ha, fun hacc => ?_⟩⟩⟩
  · exact (decode_acallOpcode (opcodeNumber_slotWord (op := 0x11) (by decide) hk)).trans
      (formatS_slotWord (op := 0x11) (by decide) hk .acall)
  · exact accessor_within_fixedSource (hacc _ (mem_acc_of_accAt ha))

end Sys2Proof.Machine
end

section
/-! Extraction (spec/41_bit_accessor.md R132 to R137): every bit of an assembled field, in both orders, and what a call
of a slot answers. -/

namespace Sys2Proof.Machine

open Sys2Proof.Claims

/-- Bit `k` of a byte sequence (R132): `bufferBit` over the bytes of a source. -/
abbrev bitOf (bytes : Nat → Byte) (k : Nat) : Bool := (bytes (k / 8)).getLsbD (k % 8)

section
variable {bytes : Nat → Byte} {start len : Nat}

/-! ### One chunk -/

theorem chunk_lt (b : Nat) : chunk bytes start len b < 2 ^ chunkWidth start len b := Nat.mod_lt _ (Nat.two_pow_pos _)

/-- The bits of a touched byte's chunk are the field's bits in that byte, from `lo` up (R133). -/
theorem testBit_chunk {b i : Nat} (hb : chunkLo start b ≤ chunkHi start len b) (hi : i < chunkWidth start len b) :
    (chunk bytes start len b).testBit i = bitOf bytes (chunkLo start b + i) := by
  have hbyte : (chunkLo start b + i) / 8 = b ∧ (chunkLo start b + i) % 8 = chunkLo start b - 8 * b + i := by
    unfold chunkWidth chunkHi chunkLo at *
    omega
  obtain ⟨hdiv, hmod⟩ := hbyte
  rw [chunk, Nat.testBit_mod_two_pow, Nat.testBit_shiftRight, decide_eq_true hi, Bool.true_and, bitOf, hdiv, hmod,
    BitVec.getLsbD]

/-- Pushing a chunk puts it below the bits already there. -/
theorem testBit_pushChunk {b : Nat} (hb : chunkLo start b ≤ chunkHi start len b) (u i : Nat) :
    (pushChunk bytes start len u b).testBit i =
      if i < chunkWidth start len b then bitOf bytes (chunkLo start b + i)
      else u.testBit (i - chunkWidth start len b) := by
  rw [pushChunk, Nat.testBit_or, Nat.testBit_shiftLeft]
  by_cases hi : i < chunkWidth start len b
  · rw [if_pos hi, testBit_chunk hb hi, decide_eq_false (Nat.not_le.2 hi), Bool.false_and, Bool.false_or]
  · have hchunk : (chunk bytes start len b).testBit i = false :=
      Nat.testBit_lt_two_pow (lt_of_lt_of_le (chunk_lt b) (Nat.pow_le_pow_right (by decide) (Nat.not_lt.1 hi)))
    rw [if_neg hi, hchunk, decide_eq_true (Nat.not_lt.1 hi), Bool.true_and, Bool.or_false]

theorem pushChunk_lt {u n : Nat} (hu : u < 2 ^ n) (b : Nat) :
    pushChunk bytes start len u b < 2 ^ (n + chunkWidth start len b) := by
  refine Nat.or_lt_two_pow ?_ (lt_of_lt_of_le (chunk_lt b) (Nat.pow_le_pow_right (by decide) (Nat.le_add_left _ _)))
  rw [Nat.shiftLeft_eq, Nat.pow_add]
  exact Nat.mul_lt_mul_of_pos_right hu (Nat.two_pow_pos _)

/-- How many bytes the field touches (R133). -/
def touchedCount (start len : Nat) : Nat := (start + len - 1) / 8 + 1 - start / 8

theorem touchedBytes_eq : touchedBytes start len = List.range' (start / 8) (touchedCount start len) := rfl

theorem first_add_touchedCount : start / 8 + touchedCount start len = (start + len - 1) / 8 + 1 := by
  unfold touchedCount
  omega

/-! ### Little-endian order (R134) -/

/-- The chunks from a touched byte `b` up to the last: bit i is the field's i-th bit counted from `lo(b)`. -/
theorem testBit_foldr_pushChunk (hlen : 1 ≤ len) (c : Nat) : ∀ b i : Nat, start < 8 * (b + 1) →
    b + c = (start + len - 1) / 8 + 1 →
      ((List.range' b c).foldr (fun b u => pushChunk bytes start len u b) 0).testBit i =
        (decide (chunkLo start b + i < start + len) && bitOf bytes (chunkLo start b + i)) := by
  induction c with
  | zero =>
    intro b i _ hlast
    have hbeyond : ¬ chunkLo start b + i < start + len := by unfold chunkLo; omega
    rw [decide_eq_false hbeyond, Bool.false_and]
    exact Nat.zero_testBit i
  | succ c ih =>
    intro b i hfirst hlast
    have htouched : chunkLo start b ≤ chunkHi start len b := by unfold chunkLo chunkHi; omega
    rw [List.range'_succ, List.foldr_cons, testBit_pushChunk htouched]
    by_cases hi : i < chunkWidth start len b
    · have hin : chunkLo start b + i < start + len := by unfold chunkWidth chunkHi at *; omega
      rw [if_pos hi, decide_eq_true hin, Bool.true_and]
    · rw [if_neg hi, ih (b + 1) _ (by omega) (by omega)]
      by_cases hin : chunkLo start b + i < start + len
      · have hnext : chunkLo start (b + 1) + (i - chunkWidth start len b) = chunkLo start b + i := by
          unfold chunkWidth chunkHi chunkLo at *
          omega
        rw [hnext]
      · have hbeyond : ¬ chunkLo start (b + 1) + (i - chunkWidth start len b) < start + len := by
          unfold chunkWidth chunkHi chunkLo at *
          omega
        rw [decide_eq_false hin, decide_eq_false hbeyond, Bool.false_and, Bool.false_and]

/-- Bit j of a little-endian field is buffer bit `start + j` (R134). -/
theorem testBit_assembleField_le (hlen : 1 ≤ len) (j : Nat) :
    (assembleField bytes start len false).testBit j = (decide (j < len) && bitOf bytes (start + j)) := by
  have hfirst : chunkLo start (start / 8) = start := by unfold chunkLo; omega
  rw [assembleField, if_neg (by decide), List.foldl_reverse, touchedBytes_eq,
    testBit_foldr_pushChunk hlen _ _ j (by omega) first_add_touchedCount, hfirst]
  simp only [Nat.add_lt_add_iff_left]

/-! ### Big-endian order (R135) -/

/-- The number of the first `c` touched bytes, in big-endian order. -/
def bePrefix (bytes : Nat → Byte) (start len c : Nat) : Nat :=
  (List.range' (start / 8) c).foldl (pushChunk bytes start len) 0

/-- The end of the field's part in its first `c` touched bytes. -/
def prefixEnd (start len c : Nat) : Nat := min (start + len) (8 * (start / 8 + c))

theorem bePrefix_succ (c : Nat) :
    bePrefix bytes start len (c + 1) = pushChunk bytes start len (bePrefix bytes start len c) (start / 8 + c) := by
  rw [bePrefix, List.range'_concat, List.foldl_append, Nat.one_mul]
  rfl

theorem assembleField_be :
    assembleField bytes start len true = bePrefix bytes start len (touchedCount start len) := rfl

/-- A touched byte's chunk begins where the earlier bytes' part of the field ends. -/
theorem prefixEnd_succ {c : Nat} (hlen : 1 ≤ len) (hc : start / 8 + c ≤ (start + len - 1) / 8) :
    prefixEnd start len (c + 1) - start =
      prefixEnd start len c - start + chunkWidth start len (start / 8 + c) := by
  unfold prefixEnd chunkWidth chunkHi chunkLo
  omega

theorem bePrefix_lt (hlen : 1 ≤ len) (c : Nat) (hc : start / 8 + c ≤ (start + len - 1) / 8 + 1) :
    bePrefix bytes start len c < 2 ^ (prefixEnd start len c - start) := by
  induction c with
  | zero => exact Nat.two_pow_pos _
  | succ c ih =>
    rw [bePrefix_succ, prefixEnd_succ hlen (by omega)]
    exact pushChunk_lt (ih (by omega)) _

/-- Each field bit stands above the later bytes' chunks as far as it stands above `lo` of its own byte. -/
theorem testBit_bePrefix (hlen : 1 ≤ len) (c : Nat) (hc : start / 8 + c ≤ (start + len - 1) / 8 + 1) {m : Nat}
    (hm : start ≤ m) (hend : m < prefixEnd start len c) :
    (bePrefix bytes start len c).testBit
        (prefixEnd start len c - 1 - chunkHi start len (m / 8) + (m - chunkLo start (m / 8))) = bitOf bytes m := by
  induction c with
  | zero => unfold prefixEnd at hend; omega
  | succ c ih =>
    have htouched : chunkLo start (start / 8 + c) ≤ chunkHi start len (start / 8 + c) := by
      unfold chunkLo chunkHi
      omega
    rw [bePrefix_succ, testBit_pushChunk htouched]
    by_cases hown : m / 8 = start / 8 + c
    · have hindex : prefixEnd start len (c + 1) - 1 - chunkHi start len (m / 8) + (m - chunkLo start (m / 8)) =
          m - chunkLo start (start / 8 + c) := by
        rw [hown]
        unfold prefixEnd chunkHi
        omega
      have hin : m - chunkLo start (start / 8 + c) < chunkWidth start len (start / 8 + c) := by
        unfold prefixEnd at hend
        unfold chunkWidth chunkHi chunkLo
        omega
      have hlo : chunkLo start (start / 8 + c) + (m - chunkLo start (start / 8 + c)) = m := by
        unfold chunkLo
        omega
      rw [hindex, if_pos hin, hlo]
    · have hearlier : m < prefixEnd start len c := by unfold prefixEnd at *; omega
      have hindex : prefixEnd start len (c + 1) - 1 - chunkHi start len (m / 8) + (m - chunkLo start (m / 8)) =
          prefixEnd start len c - 1 - chunkHi start len (m / 8) + (m - chunkLo start (m / 8)) +
            chunkWidth start len (start / 8 + c) := by
        have hstep := prefixEnd_succ (start := start) hlen (show start / 8 + c ≤ (start + len - 1) / 8 by omega)
        have hhi : chunkHi start len (m / 8) < prefixEnd start len c := by unfold prefixEnd chunkHi at *; omega
        omega
      rw [hindex, if_neg (by omega), Nat.add_sub_cancel, ih (by omega) hearlier]

theorem prefixEnd_touchedCount : prefixEnd start len (touchedCount start len) = start + len := by
  rw [prefixEnd, first_add_touchedCount]
  omega

/-- Each bit of a big-endian field, placed by its byte's chunk (R135). -/
theorem testBit_assembleField_be (hlen : 1 ≤ len) {m : Nat} (hm : start ≤ m) (hend : m < start + len) :
    (assembleField bytes start len true).testBit
      (start + len - 1 - chunkHi start len (m / 8) + (m - chunkLo start (m / 8))) = bitOf bytes m := by
  have h := testBit_bePrefix (bytes := bytes) hlen _ first_add_touchedCount.le hm (by rwa [prefixEnd_touchedCount])
  rwa [prefixEnd_touchedCount, ← assembleField_be] at h

/-- An assembled field has `len` bits, in either order (spec/41_bit_accessor.md R134, R135). -/
theorem assembleField_lt (hlen : 1 ≤ len) (be : Bool) : assembleField bytes start len be < 2 ^ len := by
  cases be with
  | false =>
    refine Nat.lt_pow_two_of_testBit _ fun i hi => ?_
    rw [testBit_assembleField_le hlen, decide_eq_false (Nat.not_lt.2 hi), Bool.false_and]
  | true =>
    have h := bePrefix_lt (bytes := bytes) (start := start) hlen _ first_add_touchedCount.le
    rwa [prefixEnd_touchedCount, Nat.add_sub_cancel_left, ← assembleField_be] at h

end

/-! ### Sign extension (R136) -/

/-- The 1-bits of a sign extension stand above the field, so they add to it. -/
theorem signExtend_eq_add {u len width : Nat} (hu : u < 2 ^ len) (hw : len ≤ width) :
    signExtend u len width = if u.testBit (len - 1) then u + (2 ^ width - 2 ^ len) else u := by
  have hones : 2 ^ width - 2 ^ len = (2 ^ (width - len) - 1) <<< len := by
    rw [Nat.shiftLeft_eq, Nat.sub_mul, ← Nat.pow_add, Nat.sub_add_cancel hw, Nat.one_mul]
  rw [signExtend, hones, Nat.or_comm, ← Nat.shiftLeft_add_eq_or_of_lt hu, Nat.add_comm]

theorem two_pow_accessorWidth (w64 : Bool) : 2 ^ accessorWidth w64 = if w64 then 2 ^ 64 else 2 ^ 32 := by
  cases w64 <;> rfl

theorem accessorWidth_le (w64 : Bool) : accessorWidth w64 ≤ 64 := by cases w64 <;> decide

/-! ### What a call answers -/

/-- The field of an accessor, as the unsigned number its order gives (R134, R135). -/
def State.unsignedField (s : State) (a : Accessor) : Nat :=
  assembleField (s.bufByte a.src) a.start.toNat a.len.toNat a.be

theorem accessorValue_unsigned (s : State) {a : Accessor} (h : a.sg = false) :
    s.accessorValue a = BitVec.ofNat 64 (s.unsignedField a) := by
  simp only [State.accessorValue, extractField, h, State.unsignedField, Bool.false_eq_true, if_false]

section
variable {s : State} {k : Nat} {a : Accessor} (h : Callable s k a)
include h

theorem exec_acall_of_callable : exec (.acall k) s = .next (s.writeRes (s.accessorValue a)) := by
  obtain ⟨hs, hk, ha, -, -, hr⟩ := h
  exact exec_acall_field hs hk ha hr

theorem unsignedField_lt : s.unsignedField a < 2 ^ a.len.toNat := by
  obtain ⟨-, -, -, hlen, -, -⟩ := h
  exact assembleField_lt hlen a.be

/-- The unsigned number fits `RES`. -/
theorem toNat_ofNat_unsignedField : (BitVec.ofNat 64 (s.unsignedField a)).toNat = s.unsignedField a := by
  have hlt := unsignedField_lt h
  obtain ⟨-, -, -, -, hwidth, -⟩ := h
  refine Nat.mod_eq_of_lt (lt_of_lt_of_le hlt (Nat.pow_le_pow_right (by decide) ?_))
  exact hwidth.trans (accessorWidth_le a.w64)

theorem accessorValue_signed (hsg : a.sg = true) :
    s.accessorValue a = BitVec.ofNat 64 (if (s.unsignedField a).testBit (a.len.toNat - 1)
      then s.unsignedField a + ((if a.w64 then 2 ^ 64 else 2 ^ 32) - 2 ^ a.len.toNat) else s.unsignedField a) := by
  have hlt := unsignedField_lt h
  obtain ⟨-, -, -, -, hwidth, -⟩ := h
  rw [← two_pow_accessorWidth, ← signExtend_eq_add hlt hwidth, State.accessorValue, extractField, if_pos hsg,
    State.unsignedField]

/-- The same slot compiled unsigned is callable too: only its `SG` differs. -/
theorem callable_setAcc_unsigned (hk : k < s.acc.length) :
    Callable (s.setAcc k { a with sg := false }) k { a with sg := false } := by
  obtain ⟨hs, hnacc, -, hlen, hwidth, hr⟩ := h
  exact ⟨hs, hnacc, by simp [State.accAt, hk], hlen, hwidth, hr⟩

end

/-! ### The statements -/

/-- Settles O17: the result is the field assembled in little-endian order. -/
theorem littleEndianFieldBits : Obligations.LittleEndianFieldBits := by
  intro s k a hcall hbe hsg
  refine ⟨_, exec_acall_of_callable hcall, fun j => ?_⟩
  rw [State.writeRes_res, accessorValue_unsigned s hsg, BitVec.getLsbD, toNat_ofNat_unsignedField hcall,
    State.unsignedField, hbe]
  obtain ⟨-, -, -, hlen, -, -⟩ := hcall
  exact testBit_assembleField_le hlen j

/-- Settles O18: the result is the field assembled in big-endian order. -/
theorem bigEndianFieldBits : Obligations.BigEndianFieldBits := by
  intro s k a hcall hbe hsg
  refine ⟨_, exec_acall_of_callable hcall, ?_, fun m hm hend => ?_⟩
  · rw [State.writeRes_res, accessorValue_unsigned s hsg, toNat_ofNat_unsignedField hcall]
    exact unsignedField_lt hcall
  · rw [State.writeRes_res, accessorValue_unsigned s hsg, BitVec.getLsbD, toNat_ofNat_unsignedField hcall,
      State.unsignedField, hbe]
    obtain ⟨-, -, -, hlen, -, -⟩ := hcall
    exact testBit_assembleField_be hlen hm hend

/-- Settles O19: both calls give the one unsigned field, and the signed one extends it. -/
theorem signedFieldIsExtended : Obligations.SignedFieldIsExtended := by
  intro s k a hcall hsg
  refine ⟨s.unsignedField a, unsignedField_lt hcall, fun s' hs' hk => ?_, ?_⟩
  · subst hs'
    have hexec := exec_acall_of_callable (callable_setAcc_unsigned hcall hk)
    rwa [accessorValue_unsigned _ rfl] at hexec
  · rw [exec_acall_of_callable hcall, accessorValue_signed hcall hsg]
    rfl

end Sys2Proof.Machine
end

section
/-! Frame arrival (spec/42_fast_packet.md R160, R178 to R180): the bytes the frame register takes, on numbers, and that
a frame's effects do not depend on the operand registers. -/

namespace Sys2Proof.Machine

open Sys2Proof.Claims

/-! ### Packed payloads and identifiers as numbers -/

theorem unpack_eq_ofNat (w : Word64) {i : Nat} (h : i < 8) :
    unpack w i = BitVec.ofNat 8 (bits w.toNat (56 - 8 * i) 8) := by
  rw [unpack, if_pos h]
  exact eq_ofNat_of_toNat_eq (extractLsb'_toNat_eq_bits w _ _)

/-- Unpacking a packed payload gives its bytes back (spec/20_memory.md R59). -/
theorem unpack_pack (b : Nat → Byte) {i : Nat} (h : i < 8) : unpack (pack b) i = b i := by
  apply BitVec.eq_of_toNat_eq
  rw [unpack, if_pos h, extractLsb'_toNat_eq_bits]
  simp only [bits, pack, toNat_append_eq_add]
  interval_cases i <;> omega

theorem extractLsb'_zero_eq_ofNat {n : Nat} (w : BitVec n) (len : Nat) :
    w.extractLsb' 0 len = BitVec.ofNat len w.toNat := rfl

theorem pgnOf_eq_ofNat (id : Word32) : pgnOf id = BitVec.ofNat 17 (pgnNumber id.toNat) :=
  eq_ofNat_of_toNat_eq (pgnOf_toNat id)

theorem pgnOf_low32_eq_ofNat (x : Word64) : pgnOf (low32 x) = BitVec.ofNat 17 (pgnNumber x.toNat) :=
  eq_ofNat_of_toNat_eq (pgnOf_low32_toNat x)

theorem sourceAddress_eq_ofNat (id : Word32) : sourceAddress id = BitVec.ofNat 8 id.toNat :=
  extractLsb'_zero_eq_ofNat id 8

theorem sourceAddress_low32_eq_ofNat (x : Word64) : sourceAddress (low32 x) = BitVec.ofNat 8 x.toNat := by
  rw [sourceAddress, extractLsb'_low32 x (by decide), extractLsb'_zero_eq_ofNat]

theorem low32_setWidth (id : Word32) : low32 (id.setWidth 64) = id := by
  apply BitVec.eq_of_toNat_eq
  rw [low32_toNat, BitVec.toNat_setWidth, bits]
  omega

/-! ### The latched bytes -/

theorem read_latchedData {n : Nat} (hn : n ≤ 8) (w : Word64) (i : Nat) :
    Memory.read (latchedData n w) i = if i < n then BitVec.ofNat 8 (bits w.toNat (56 - 8 * i) 8) else 0 := by
  rw [latchedData, Memory.read_tabulate]
  by_cases hi : i < n
  · rw [if_pos (show i < 8 by omega), if_pos hi, if_pos hi, unpack_eq_ofNat w (by omega)]
  · rw [if_neg hi, if_neg hi, ite_self]

theorem unpack_word (f : PortFrame) {i : Nat} (h : i < 8) : unpack f.word i = f.bytes.getD i 0 := unpack_pack _ h

/-- A port frame's bytes are latched, with 0 beyond its data length. -/
theorem read_latchedData_word (f : PortFrame) (i : Nat) :
    Memory.read (latchedData f.bytes.length f.word) i = f.bytes.getD i 0 := by
  have hshort := f.short
  rw [read_latchedData hshort]
  by_cases hi : i < f.bytes.length
  · rw [if_pos hi, ← unpack_eq_ofNat _ (by omega), unpack_word f (by omega)]
  · rw [if_neg hi, List.getD_eq_default _ _ (by omega)]

/-- A latched frame changes the frame register and nothing else. -/
theorem latchFrame_eq_update (s : State) (t : Word64) (id : Word32) (n : Nat) (w : Word64) :
    latchFrame s t id n w =
      { s with ftime := t, fid := id, fdlc := BitVec.ofNat 4 n, fdata := (latchFrame s t id n w).fdata } := by
  simp only [latchFrame]

/-! ### The two input paths of a running block -/

theorem exec_frameIn_of_running {s : State} {n : Nat} (hs : s.Running) (hn : n ≤ 8) :
    exec (.frameIn n) s = .next (frameArrive s s.opc (low32 s.opa) n s.opb) := by
  rw [exec, execFrameIn, whenRunning_of_running hs, hostFrame, if_neg (by omega)]

theorem step_frame_of_running {s : State} {f : PortFrame} {rest : List Event} (hs : s.Running)
    (hp : s.pending = .frame f :: rest) :
    step s = .next (frameArrive { s with pending := rest } f.time f.id f.bytes.length f.word) := by
  have hs' : ¬ ({ s with pending := rest } : State).halted = true := by simp [State.halted, hs]
  rw [step_frame hp, portArrive, if_neg hs']

/-- The state after a frame arrival, where the frame's PGN is in `FP_PGNS` and where it is not. -/
theorem frameArrive_eq (s : State) (t : Word64) (id : Word32) (n : Nat) (w : Word64) :
    (pgnOf id ∈ s.cfg.fpPgns →
      frameArrive s t id n w = fpStep (latchFrame s t id n w) (pgnOf id) (sourceAddress id)) ∧
    (pgnOf id ∉ s.cfg.fpPgns → frameArrive s t id n w = latchFrame s t id n w) :=
  ⟨fun h => if_pos h, fun h => if_neg h⟩

/-- Settles O24: the state in between is the latched frame. -/
theorem frameArrivalLatchesTheFrame : Obligations.FrameArrivalLatchesTheFrame := by
  constructor
  · intro s n hs hn
    rw [← pgnOf_low32_eq_ofNat, ← sourceAddress_low32_eq_ofNat]
    exact ⟨latchFrame s s.opc (low32 s.opa) n s.opb, _, exec_frameIn_of_running hs hn,
      latchFrame_eq_update s s.opc (low32 s.opa) n s.opb,
      read_latchedData hn s.opb, frameArrive_eq s s.opc (low32 s.opa) n s.opb⟩
  · intro s f rest hs hp
    rw [← pgnOf_eq_ofNat, ← sourceAddress_eq_ofNat]
    exact ⟨latchFrame { s with pending := rest } f.time f.id f.bytes.length f.word, _, step_frame_of_running hs hp,
      latchFrame_eq_update { s with pending := rest } f.time f.id f.bytes.length f.word,
      read_latchedData_word f, frameArrive_eq { s with pending := rest } f.time f.id f.bytes.length f.word⟩

/-- Settles O28: a halted block's port does nothing with the frame. -/
theorem haltedPortFrameDiscarded : Obligations.HaltedPortFrameDiscarded := by
  intro s f rest hs hp
  rw [step_frame hp, portArrive]
  exact congrArg _ (if_pos hs)

/-! ### What a frame's effects do not read or write -/

/-- The state with other operand registers. -/
def State.withOperands (s : State) (a b c : Word64) : State := { s with opa := a, opb := b, opc := c }

section
variable (s : State) (a b c : Word64)

theorem freeIfAny_withOperands (slot : Option Nat) :
    freeIfAny (s.withOperands a b c) slot = (freeIfAny s slot).withOperands a b c := by cases slot <;> rfl

theorem complete_withOperands (i : Nat) (f : FpSlot) :
    complete (s.withOperands a b c) i f = (complete s i f).withOperands a b c := by
  simp only [complete, State.withOperands, State.completionMsg]

theorem storeAndCheck_withOperands (i : Nat) (f : FpSlot) :
    storeAndCheck (s.withOperands a b c) i f = (storeAndCheck s i f).withOperands a b c := by
  rw [storeAndCheck, storeAndCheck, apply_ite (State.withOperands · a b c), ← complete_withOperands]
  rfl

theorem fpFirst_withOperands (slot : Option Nat) (p : PgnValue) (sa : Byte) (seq : BitVec 3) :
    fpFirst (s.withOperands a b c) slot p sa seq = (fpFirst s slot p sa seq).withOperands a b c := by
  cases slot with
  | some i => exact storeAndCheck_withOperands s a b c i _
  | none =>
    have hfree : firstFree (s.withOperands a b c).fps = firstFree s.fps := rfl
    simp only [fpFirst, hfree]
    cases firstFree s.fps with
    | none => rfl
    | some i => exact storeAndCheck_withOperands s a b c i _

theorem fpNext_withOperands (slot : Option Nat) (seq : BitVec 3) (idx : BitVec 5) :
    fpNext (s.withOperands a b c) slot seq idx = (fpNext s slot seq idx).withOperands a b c := by
  cases slot with
  | none => rfl
  | some i =>
    have hslot : (s.withOperands a b c).fpAt i = s.fpAt i := rfl
    simp only [fpNext, hslot]
    cases s.fpAt i with
    | none => rfl
    | some f =>
      by_cases he : f.expects seq idx = true
      · simp only [if_pos he]
        exact storeAndCheck_withOperands s a b c i _
      · simp only [if_neg he]
        rfl

/-- A reassembly step neither reads nor writes an operand register. -/
theorem fpStep_withOperands (p : PgnValue) (sa : Byte) :
    fpStep (s.withOperands a b c) p sa = (fpStep s p sa).withOperands a b c := by
  rw [fpStep, fpStep, apply_ite (State.withOperands · a b c), apply_ite (State.withOperands · a b c),
    apply_ite (State.withOperands · a b c), ← freeIfAny_withOperands, ← fpFirst_withOperands,
    ← fpNext_withOperands]
  rfl

theorem frameArrive_withOperands (t : Word64) (id : Word32) (n : Nat) (w : Word64) :
    frameArrive (s.withOperands a b c) t id n w = (frameArrive s t id n w).withOperands a b c := by
  rw [frameArrive, frameArrive, apply_ite (State.withOperands · a b c), ← fpStep_withOperands]
  rfl

end

/-- A reassembly step changes the message register, the counter, `OUT` and the table, and nothing else. -/
theorem fpStep_eq_update (s : State) (p : PgnValue) (a : Byte) :
    fpStep s p a =
      { s with
        mtime := (fpStep s p a).mtime
        mid := (fpStep s p a).mid
        mpgn := (fpStep s p a).mpgn
        msa := (fpStep s p a).msa
        mlen := (fpStep s p a).mlen
        mbuf := (fpStep s p a).mbuf
        mcount := (fpStep s p a).mcount
        out := (fpStep s p a).out
        fps := (fpStep s p a).fps } := by
  rcases fpStep_cases s p a with e | ⟨i, -, e⟩ | ⟨i, f, -, -, e⟩ <;> rw [e]
  · rfl
  · rcases storeAndCheck_cases s i f with ⟨-, e⟩ | ⟨-, e⟩ <;> rw [e]
    · exact complete_eq_update s i f
    · rfl

theorem frameArrive_res_status (s : State) (t : Word64) (id : Word32) (n : Nat) (w : Word64) :
    (frameArrive s t id n w).res = s.res ∧ (frameArrive s t id n w).status = s.status := by
  rcases frameArrive_cases s t id n w with ⟨-, e⟩ | ⟨-, e⟩ <;> rw [e]
  · exact ⟨latchFrame_res .., latchFrame_status ..⟩
  · rw [fpStep_eq_update]
    exact ⟨latchFrame_res s t id n w, latchFrame_status s t id n w⟩

theorem frameArrive_operands (s : State) (t : Word64) (id : Word32) (n : Nat) (w : Word64) :
    frameArrive s t id n w = (frameArrive s t id n w).withOperands s.opa s.opb s.opc :=
  frameArrive_withOperands s s.opa s.opb s.opc t id n w

/-- `FRAME_IN` with a frame's identifier, payload and time in the operand registers makes the arrival of that frame. -/
theorem exec_frameIn_withOperands {s : State} {n : Nat} (hs : s.Running) (hn : n ≤ 8) (t : Word64) (id : Word32)
    (w : Word64) :
    exec (.frameIn n) (s.withOperands (id.setWidth 64) w t) =
      .next ((frameArrive s t id n w).withOperands (id.setWidth 64) w t) := by
  have hid : low32 (s.withOperands (id.setWidth 64) w t).opa = id := low32_setWidth id
  have hs' : (s.withOperands (id.setWidth 64) w t).Running := hs
  rw [exec_frameIn_of_running hs' hn, hid, frameArrive_withOperands]
  rfl

/-- Settles O27: both paths are one frame arrival, which commutes with a change of the operand registers. -/
theorem portFrameActsAsFrameIn : Obligations.PortFrameActsAsFrameIn := by
  intro s f rest hs hp
  obtain ⟨hres, hstatus⟩ :=
    frameArrive_res_status { s with pending := rest } f.time f.id f.bytes.length f.word
  have hword (i : Nat) (hi : i < 8) : BitVec.ofNat 8 (bits f.word.toNat (56 - 8 * i) 8) = f.bytes.getD i 0 := by
    rw [← unpack_eq_ofNat _ hi, unpack_word f hi]
  exact ⟨f.word, _, _, hword,
    exec_frameIn_withOperands (s := { s with pending := rest }) hs f.short f.time f.id f.word,
    frameArrive_operands { s with pending := rest } f.time f.id f.bytes.length f.word, hres, hstatus,
    step_frame_of_running hs hp⟩

end Sys2Proof.Machine
end

section
/-! One reassembly step by the kind of its fragment (spec/42_fast_packet.md R163 to R172). -/

namespace Sys2Proof.Machine

open Sys2Proof.Claims

section
variable {s : State} {p : PgnValue} {a : Byte} {f : FpSlot}

/-! ### The kinds of fragment -/

theorem fragIdx_eq_zero_iff : s.fragIdx = 0 ↔ bits (Memory.read s.fdata 0).toNat 0 5 = 0 :=
  extractLsb'_eq_zero_iff ..

theorem expects_iff : f.expects s.fragSeq s.fragIdx = true ↔ Expected s f := by
  rw [FpSlot.expects, Bool.and_eq_true, decide_eq_true_iff, decide_eq_true_iff, State.fragSeq, State.fragIdx,
    ← BitVec.toNat_inj, extractLsb'_toNat_eq_bits, extractLsb'_toNat_eq_bits]

theorem fpStep_malformed
    (h : s.fdlc.toNat = 0 ∨ (s.fdlc.toNat = 1 ∧ bits (Memory.read s.fdata 0).toNat 0 5 = 0)) :
    fpStep s p a = freeIfAny s (findSlot s.fps p a) := by
  rcases h with h0 | ⟨h1, hidx⟩
  · rw [fpStep, if_pos h0]
  · rw [fpStep, if_neg (by omega), if_pos (fragIdx_eq_zero_iff.2 hidx), if_pos (by omega)]

theorem fpStep_first (h : IsFirst s) : fpStep s p a = fpFirst s (findSlot s.fps p a) p a s.fragSeq := by
  obtain ⟨hdlc, hidx⟩ := h
  rw [fpStep, if_neg (by omega), if_pos (fragIdx_eq_zero_iff.2 hidx), if_neg (by omega)]

theorem fpStep_later (h : IsLater s) : fpStep s p a = fpNext s (findSlot s.fps p a) s.fragSeq s.fragIdx := by
  obtain ⟨hdlc, hidx⟩ := h
  rw [fpStep, if_neg hdlc, if_neg (mt fragIdx_eq_zero_iff.1 hidx)]

/-- A first fragment that finds room opens its key's slot or a free one. -/
theorem fpStep_first_of_room (h : IsFirst s) (hroom : HasRoom s p a) :
    ∃ i, SlotFor s p a i ∧ fpStep s p a = storeAndCheck s i (openedSlot s p a s.fragSeq) := by
  rw [fpStep_first h]
  cases hslot : findSlot s.fps p a with
  | some i => exact ⟨i, .inl hslot, rfl⟩
  | none =>
    have hnone : none ∈ s.fps := hroom.resolve_left fun hne => hne (fpLookup_eq_none.2 hslot)
    simp only [fpFirst]
    cases hfree : firstFree s.fps with
    | none => exact absurd hnone (firstFree_eq_none.1 hfree)
    | some i => exact ⟨i, .inr ⟨hslot, firstFree_eq_some hfree⟩, rfl⟩

/-- A later fragment of a key that has a state appends to it or discards it. -/
theorem fpStep_later_of_lookup (h : IsLater s) (hf : fpLookup s p a = some f) :
    ∃ i, SlotFor s p a i ∧
      (Expected s f → fpStep s p a = storeAndCheck s i (appendedSlot s f)) ∧
      (¬ Expected s f → fpStep s p a = s.freeFp i) := by
  obtain ⟨i, hslot, hi, -, -⟩ := findSlot_of_lookup hf
  refine ⟨i, .inl hslot, fun he => ?_, fun he => ?_⟩ <;>
    simp only [fpStep_later h, hslot, fpNext, fpAt_eq_some.2 hi]
  · exact if_pos (expects_iff.2 he)
  · exact if_neg (mt expects_iff.1 he)

/-! ### Fragments that discard or are dropped -/

/-- Freeing the slot of a key changes the table alone and leaves the key without state. -/
theorem freeFp_discards {i : Nat} {t : State} (h : SlotFor s p a i) (hs : s.TableOk) (ht : t = s.freeFp i) :
    t = { s with fps := t.fps } ∧ fpLookup t p a = none :=
  ⟨ht ▸ rfl, fpLookup_set_none h hs (congrArg State.fps ht)⟩

theorem freeIfAny_discards {t : State} (hs : s.TableOk) (ht : t = freeIfAny s (findSlot s.fps p a)) :
    t = { s with fps := t.fps } ∧ fpLookup t p a = none := by
  cases hslot : findSlot s.fps p a with
  | none =>
    rw [hslot] at ht
    exact ⟨ht ▸ rfl, ht ▸ fpLookup_eq_none.2 hslot⟩
  | some i => rw [hslot] at ht; exact freeFp_discards (.inl hslot) hs ht

/-! ### Completion -/

theorem read_completedBuf (hcap : f.total.toNat ≤ Config.maxFpLen) (i : Nat) :
    Memory.read (completedBuf f) i = if i < f.total.toNat then Memory.read f.buf i else 0 := by
  rw [completedBuf, Memory.read_tabulate]
  by_cases hi : i < f.total.toNat
  · rw [if_pos (hi.trans_le hcap)]
  · rw [if_neg hi, ite_self]

/-- A completion delivers the bytes of its slot. -/
theorem complete_delivers {i : Nat} {byte : Nat → Byte} (h : SlotFor s p a i) (hs : s.TableOk)
    (hkey : f.pgn = p ∧ f.sa = a) (hcap : f.total.toNat ≤ Config.maxFpLen)
    (hbyte : ∀ j < f.total.toNat, Memory.read f.buf j = byte j) : Delivers s (complete s i f) p a f.total byte := by
  have hbytes : firstBytes f.buf f.total.toNat = (List.range f.total.toNat).map (Memory.read (completedBuf f)) :=
    List.map_congr_left fun j hj => by rw [read_completedBuf hcap, if_pos (List.mem_range.1 hj)]
  have hmsg : MessageIs (complete s i f) (s.completionMsg f) :=
    ⟨rfl, rfl, rfl, rfl, rfl, by rw [complete_mlen, complete_mbuf]; exact hbytes⟩
  have hmbuf (j : Nat) :
      Memory.read (complete s i f).mbuf j = if j < f.total.toNat then byte j else 0 := by
    rw [complete_mbuf, read_completedBuf hcap]
    exact ite_congr rfl (hbyte j) fun _ => rfl
  exact ⟨s.completionMsg f, hmsg, rfl, rfl, hkey.1, hkey.2, rfl, hmbuf,
    complete_eq_update s i f, fpLookup_set_none h hs (complete_fps s i f)⟩

/-- A stored slot whose count reaches its total delivers its bytes. -/
theorem storeAndCheck_delivers {i : Nat} {byte : Nat → Byte} (h : SlotFor s p a i) (hs : s.TableOk)
    (hstored : Stored s p a f) (hfull : f.count = f.total) (hcap : f.total.toNat ≤ Config.maxFpLen)
    (hbyte : ∀ j < f.total.toNat, Memory.read f.buf j = byte j) :
    Delivers s (storeAndCheck s i f) p a f.total byte := by
  rw [storeAndCheck, if_pos hfull]
  exact complete_delivers h hs hstored.key hcap hbyte

/-- A first fragment that carries its whole total opens a full slot. -/
theorem openedSlot_full (seq : BitVec 3) (h : (Memory.read s.fdata 1).toNat ≤ s.fdlc.toNat - 2) :
    (openedSlot s p a seq).count = (openedSlot s p a seq).total := by
  simp only [openedSlot, min_eq_right h, BitVec.ofNat_toNat, BitVec.setWidth_eq]

theorem read_openedSlot_buf (seq : BitVec 3) (hcap : (Memory.read s.fdata 1).toNat ≤ Config.maxFpLen) {j : Nat}
    (hj : j < min (s.fdlc.toNat - 2) (Memory.read s.fdata 1).toNat) :
    Memory.read (openedSlot s p a seq).buf j = Memory.read s.fdata (2 + j) := by
  rw [openedSlot, Memory.read_copyIn Memory.wf_nil, if_pos ⟨Nat.zero_le j, by omega, by omega⟩, Nat.sub_zero]

/-- A later fragment that reaches the total fills the slot. -/
theorem appendedSlot_full (hle : f.count.toNat ≤ f.total.toNat)
    (h : f.total.toNat ≤ f.count.toNat + (s.fdlc.toNat - 1)) : (appendedSlot s f).count = f.total := by
  have hlen : f.count.toNat + appendLen s f = f.total.toNat := by rw [appendLen]; omega
  rw [appendedSlot, hlen, BitVec.ofNat_toNat, BitVec.setWidth_eq]

theorem read_appendedSlot_buf (hwf : Memory.wf f.buf) (hcap : f.total.toNat ≤ Config.maxFpLen) {j : Nat}
    (hj : j < f.count.toNat + appendLen s f) :
    Memory.read (appendedSlot s f).buf j =
      if j < f.count.toNat then Memory.read f.buf j else Memory.read s.fdata (1 + (j - f.count.toNat)) := by
  rw [appendedSlot, Memory.read_copyIn hwf]
  by_cases hlt : j < f.count.toNat
  · rw [if_neg (by omega), if_pos hlt]
  · have hlen : appendLen s f ≤ f.total.toNat - f.count.toNat := min_le_right _ _
    rw [if_pos ⟨by omega, hj, by omega⟩, if_neg hlt]

/-- A message that an expected fragment completes fits the buffer: the 31 later frame indices carry at most 217 bytes
behind the first 6 (spec/42_fast_packet.md R181). -/
theorem total_le_maxFpLen (hframe : s.FrameOk) (hf : FpSlot.Ok f) (he : Expected s f)
    (h : f.total.toNat ≤ f.count.toNat + (s.fdlc.toNat - 1)) : f.total.toNat ≤ Config.maxFpLen := by
  obtain ⟨hdlc, -, -⟩ := hframe
  obtain ⟨-, -, -, hcount, -, -⟩ := hf
  have hidx : f.next.toNat < 2 ^ 5 := he.2 ▸ Nat.mod_lt _ (by decide)
  unfold Config.maxFpLen
  omega

end

/-! ### The statements -/

/-- Settles O30: a malformed fragment only frees its key's slot. -/
theorem malformedFragmentDiscards : Obligations.MalformedFragmentDiscards :=
  fun _ _ _ hs h => freeIfAny_discards hs (fpStep_malformed h)

/-- Settles O31: neither the search for the key nor the search for a free slot finds one. -/
theorem fullTableDropsFirstFragment : Obligations.FullTableDropsFirstFragment := by
  intro s p a hfirst hkey hfull
  rw [fpStep_first hfirst, fpLookup_eq_none.1 hkey, fpFirst, firstFree_eq_none.2 hfull]

/-- Settles O32: the search for the key finds no slot. -/
theorem laterFragmentWithoutStateDropped : Obligations.LaterFragmentWithoutStateDropped := by
  intro s p a hlater hkey
  rw [fpStep_later hlater, fpLookup_eq_none.1 hkey, fpNext]

/-- Settles O33: a fragment the state does not expect frees its slot. -/
theorem unexpectedFragmentDiscards : Obligations.UnexpectedFragmentDiscards := by
  intro s p a f hs hlater hf hne
  obtain ⟨i, hslot, -, hfree⟩ := fpStep_later_of_lookup hlater hf
  exact freeFp_discards hslot hs (hfree hne)

/-- Settles O35: the slot such a fragment stores is full, so the check behind it completes the message. -/
theorem completingFragmentDelivers : Obligations.CompletingFragmentDelivers := by
  constructor
  · intro s p a ⟨hdlc, _, _⟩ hs hfirst hroom htotal
    obtain ⟨i, hslot, e⟩ := fpStep_first_of_room hfirst hroom
    have hcap : (Memory.read s.fdata 1).toNat ≤ Config.maxFpLen := by unfold Config.maxFpLen; omega
    rw [e]
    exact storeAndCheck_delivers hslot hs (.opened hfirst.1) (openedSlot_full _ htotal) hcap
      fun j hj => read_openedSlot_buf _ hcap (lt_min (lt_of_lt_of_le hj htotal) hj)
  · intro s p a f hframe hs hlater hf he htotal
    obtain ⟨i, hslot, hstore, -⟩ := fpStep_later_of_lookup hlater hf
    have hok := slotOk_of_lookup hs hf
    have hcap := total_le_maxFpLen hframe hok he htotal
    obtain ⟨-, -, hcount, -, hwf, -⟩ := hok
    rw [hstore he]
    refine storeAndCheck_delivers hslot hs (.appended f hf hlater.1 (expects_iff.2 he))
      (appendedSlot_full hcount.le htotal) hcap fun j hj => read_appendedSlot_buf hwf hcap ?_
    have hlt : j < f.total.toNat := hj
    rw [appendLen]
    omega

end Sys2Proof.Machine
end

section
/-! The fault state (spec/60_exceptions.md R200, R204, R205): what can change `STATUS`, and what a halted block does. -/

namespace Sys2Proof.Machine

open Sys2Proof.Claims

/-! ### What changes `STATUS` -/

theorem portArrive_status (s : State) (f : PortFrame) : (portArrive s f).status = s.status := by
  rcases portArrive_cases s f with ⟨-, e⟩ | ⟨-, e⟩ <;> rw [e]
  exact (frameArrive_res_status _ _ _ _ _).2

theorem writeReg_status (s : State) (r : MmioReg) (v : Word32) : (writeReg s r v).status = s.status := by
  rw [writeReg_eq]

theorem Effect.status_or_fault {s t : State} {w : Word32} (h : Effect s w t) :
    t.status = s.status ∨ ∃ code, t = s.takeFault code (opcodeField w) := by
  cases h with
  | fault code => exact .inr ⟨code, rfl⟩
  | result v => exact .inl (State.writeRes_status _ _)
  | slot k a => exact .inl (State.setAcc_status _ _ _)
  | frame n => exact .inl (frameArrive_res_status _ _ _ _ _).2

/-- A step keeps `STATUS`, or executes a faulting command in a running block, or is reset. -/
theorem step_status_cases {s t : State} (h : step s = .next t) :
    (s.pending.head? ≠ some .reset ∧ t.status = s.status) ∨
    (∃ w rest code, s.Running ∧ s.pending = .write .w32 s.cfg.base w :: rest ∧
      t = ({ s with pending := rest }.respond .done).takeFault code (opcodeField w)) ∨
    (∃ rest, s.pending = .reset :: rest ∧ t = { s with pending := rest }.applyReset) := by
  rcases step_cases h with ⟨hp, rfl⟩ | ⟨rest, hread | hrefused | hcmd | hreg | hframe | hreset⟩
  · exact .inl ⟨by simp [hp], rfl⟩
  · obtain ⟨_, _, _, hp, rfl⟩ := hread
    exact .inl ⟨by simp [hp], rfl⟩
  · obtain ⟨_, _, _, hp, -, rfl⟩ := hrefused
    exact .inl ⟨by simp [hp], rfl⟩
  · obtain ⟨_, _, w, hp, hr, hexec⟩ := hcmd
    obtain ⟨rfl, rfl⟩ := eq_base_of_regAtAccess_cmd hr
    rcases execWord_cases hexec with ⟨-, rfl⟩ | ⟨hrun, heff⟩
    · exact .inl ⟨by simp [hp], rfl⟩
    · rcases heff.status_or_fault with hst | ⟨code, rfl⟩
      · exact .inl ⟨by simp [hp], hst⟩
      · exact .inr (.inl ⟨w, rest, code, hrun, hp, rfl⟩)
  · obtain ⟨_, _, v, r, hp, -, -, rfl⟩ := hreg
    exact .inl ⟨by simp [hp], writeReg_status _ r v⟩
  · obtain ⟨f, hp, rfl⟩ := hframe
    exact .inl ⟨by simp [hp], portArrive_status _ f⟩
  · obtain ⟨hp, rfl⟩ := hreset
    exact .inr (.inr ⟨rest, hp, rfl⟩)

/-- Settles O41: in a halted block `STATUS` is kept or the step is reset. -/
theorem onlyResetLeavesFaultState : Obligations.OnlyResetLeavesFaultState := by
  intro s t hs h
  rcases step_status_cases h with ⟨hne, hst⟩ | ⟨_, _, _, hrun, -⟩ | ⟨rest, hp, rfl⟩
  · exact ⟨fun _ => hst, fun he => absurd he hne⟩
  · cases hrun.symm.trans hs
  · exact ⟨fun hne => absurd (by rw [hp]; rfl) hne, fun _ => rfl⟩

theorem faultCodeByte_range (code : FaultCode) :
    1 ≤ (faultCodeByte code).toNat ∧ (faultCodeByte code).toNat ≤ 7 := by
  cases code <;> decide

/-- Settles O42: from a running block, a step to a halted one is neither reset nor one that keeps `STATUS`. -/
theorem faultsArePrecise : Obligations.FaultsArePrecise := by
  intro s t hs h ht
  rcases step_status_cases h with ⟨-, hst⟩ | ⟨w, rest, code, -, hp, rfl⟩ | ⟨rest, -, rfl⟩
  · rw [hst, hs] at ht
    cases ht
  · obtain ⟨hlo, hhi⟩ := faultCodeByte_range code
    exact ⟨w, rest, (faultCodeByte code).toNat, hp, hlo, hhi, takeFault_eq_faulted _ code w⟩
  · cases ht

/-! ### A halted block -/

theorem exec_of_halted {s : State} (hs : s.status.fault = true) (i : Instr) : exec i s = .next s := by
  cases i with
  | acompile k => rw [exec, execAcompile, whenRunning_of_halted hs]
  | acall k => rw [exec, execAcall, whenRunning_of_halted hs]
  | frameIn n => rw [exec, execFrameIn, whenRunning_of_halted hs]
  | _ => exact exec_codec_of_halted (by decide) hs

theorem execWord_of_halted {s : State} (hs : s.status.fault = true) (w : Word32) : execWord w s = .next s := by
  cases hw : decode w with
  | instr i => simp only [execWord, hw, exec_of_halted hs]
  | illegal r => simp only [execWord, hw, whenRunning_of_halted hs]

theorem statusWord_eq_ofNat (t : Status) :
    statusWord t = BitVec.ofNat 32 (t.fop.toNat * 2 ^ 16 + t.fcode.toNat * 2 ^ 8 + t.fault.toNat) := by
  refine eq_ofNat_of_toNat_eq ?_
  simp only [statusWord, toNat_append_eq_add, BitVec.toNat_ofBool, BitVec.toNat_ofNat]
  omega

/-- `STATUS` stands at one offset of the window (R50). -/
theorem eq_offset_of_regAtOffset_status {c : Config} {off : Nat} (h : regAtOffset c off = some .status) :
    off = 0x004 := by
  have hnamed : ∀ e ∈ namedOffsets, e.2 = .status → e.1 = 0x004 := by decide
  unfold regAtOffset at h
  split at h
  · cases h
  split at h
  · cases h
  · obtain ⟨l₁, l₂, hl, -⟩ := List.lookup_eq_some_iff.1 h
    exact hnamed (off, .status) (by simp [hl]) rfl

theorem eq_addr_of_regAtAccess_status {c : Config} {width : Width} {addr : Nat}
    (h : regAtAccess c width addr = some .status) : addr = c.base + 0x004 := by
  obtain ⟨⟨-, hbase, -⟩, hoff⟩ := Option.ite_none_right_eq_some.1 h
  have := eq_offset_of_regAtOffset_status hoff
  omega

/-- No register but `STATUS` reads `STATUS`. -/
theorem readReg_withStatus (s : State) (st : Status) {r : MmioReg} (h : r ≠ .status) :
    readReg { s with status := st } r = readReg s r := by
  cases r
  case status => exact absurd rfl h
  all_goals rfl

/-- A read elsewhere gives the host one response, whatever `STATUS` holds. -/
theorem step_read_withStatus {s : State} {width : Width} {addr : Nat} {rest : List Event} (st : Status)
    (hp : s.pending = .read width addr :: rest) (ha : addr ≠ s.cfg.base + 0x004) :
    ∃ r, step s = .next (responded s rest r) ∧
      step { s with status := st } = .next (responded { s with status := st } rest r) := by
  cases hr : regAtAccess s.cfg width addr with
  | none => exact ⟨.busError, step_read_refused hr hp, step_read_refused hr hp⟩
  | some r =>
    have hne : r ≠ .status := fun he => ha (eq_addr_of_regAtAccess_status (he ▸ hr))
    refine ⟨.data (readReg s r), step_read_reg hr hp, ?_⟩
    rw [← readReg_withStatus s st hne]
    exact step_read_reg (s := { s with status := st }) hr hp

/-- Settles O40: a halted block ignores command words and port frames, and its window works as in a running one. -/
theorem haltedBlockBehaviour : Obligations.HaltedBlockBehaviour := by
  intro s rest hs
  refine ⟨fun w hp => ?_, fun f => haltedPortFrameDiscarded s f rest hs, fun width addr u hp ha hu => ?_,
    fun hp => ?_, fun _ _ _ => step_operandWrite⟩
  · rw [step_command hp]
    exact execWord_of_halted (s := { s with pending := rest }.respond .done) hs w
  · subst hu
    exact step_read_withStatus _ hp ha
  · rw [step_read_reg (regAtAccess_named s.cfg (r := .status) (by decide)) hp, readReg, statusWord_eq_ofNat, hs]
    rfl

end Sys2Proof.Machine
end

section
/-! The order of a command's checks (spec/60_exceptions.md R203): which check of a decoded command fails first, and that
executing it raises exactly that fault. -/

namespace Sys2Proof.Machine

open Sys2Proof.Claims

/-! ### The fields of a decoded command -/

theorem opcodeNumber_of_decode {w : Word32} {i : Instr} (h : decode w = .instr i) :
    opcodeNumber w = (opcodeOf i).toNat := by
  rw [← opcodeField_toNat, opcodeField_of_decode h]

theorem slot_of_formatS {w : Word32} {mk : Nat → Instr} {i : Instr} (h : formatS w mk = .instr i) :
    i = mk (bits w.toNat 16 8) := by
  unfold formatS at h
  split at h <;> cases h
  rw [slotField, extractLsb'_toNat_eq_bits]

theorem dlc_of_formatF {w : Word32} {mk : Nat → Instr} {i : Instr} (h : formatF w mk = .instr i) :
    i = mk (bits w.toNat 0 4) := by
  unfold formatF at h
  split at h <;> cases h
  rw [dlcField, extractLsb'_toNat_eq_bits]

theorem decode_frameInOpcode {w : Word32} (h : opcodeNumber w = 0x20) : decode w = formatF w .frameIn := by
  rw [decode, opcodeField_toNat, h]
  rfl

theorem slot_of_decode_acompile {w : Word32} {k : Nat} (h : decode w = .instr (.acompile k)) :
    k = bits w.toNat 16 8 := by
  have hformat := decode_acompileOpcode (opcodeNumber_of_decode h)
  exact Instr.acompile.inj (slot_of_formatS (hformat.symm.trans h))

theorem slot_of_decode_acall {w : Word32} {k : Nat} (h : decode w = .instr (.acall k)) : k = bits w.toNat 16 8 := by
  have hformat := decode_acallOpcode (opcodeNumber_of_decode h)
  exact Instr.acall.inj (slot_of_formatS (hformat.symm.trans h))

theorem dlc_of_decode_frameIn {w : Word32} {n : Nat} (h : decode w = .instr (.frameIn n)) : n = bits w.toNat 0 4 := by
  have hformat := decode_frameInOpcode (opcodeNumber_of_decode h)
  exact Instr.frameIn.inj (dlc_of_formatF (hformat.symm.trans h))

/-! ### The checks of a decoded command -/

/-- The fault code of the first check of a decoded command that fails, 0 where none does (R203). -/
def firstFailing (s : State) : Instr → Nat
  | .acompile k =>
    if s.cfg.nAcc ≤ k then 0x03 else if ¬ LegalDescriptor (bits s.opa.toNat 0 32) then 0x04 else 0
  | .acall k =>
    if s.cfg.nAcc ≤ k then 0x03
    else
      match s.accAt k with
      | none => 0x05
      | some a => if 8 * s.sourceLen a.src < a.start.toNat + a.len.toNat then 0x06 else 0
  | .frameIn n => if 8 < n then 0x07 else 0
  | _ => 0

/-- On a word that does not decode, the first check that fails is the decoder's. -/
theorem expectedFault_of_illegal {s : State} {w : Word32} {r : Illegal} (h : decode w = .illegal r) :
    expectedFault s w = (faultCodeByte (illegalFault r)).toNat := by
  cases r with
  | illegalOpcode => exact if_pos ((decode_eq_illegalOpcode_iff w).1 h)
  | reservedBits =>
    have hop : ¬ UndefinedOpcode (opcodeNumber w) := mt (decode_eq_illegalOpcode_iff w).2 (by simp [h])
    exact (if_neg hop).trans (if_pos ((decode_eq_reservedBits_iff w).1 h))

/-- On a word that decodes, the checks of R203 are those of its command. -/
theorem expectedFault_of_decode {s : State} {w : Word32} {i : Instr} (h : decode w = .instr i) :
    expectedFault s w = firstFailing s i := by
  have hop : ¬ UndefinedOpcode (opcodeNumber w) := mt (decode_eq_illegalOpcode_iff w).2 (by simp [h])
  have hres : ¬ ReservedBitsSet w := mt (decode_eq_reservedBits_iff w).2 (by simp [h])
  have ho := opcodeNumber_of_decode h
  rw [expectedFault, if_neg hop, if_neg hres, ho]
  cases i with
  | acompile k =>
    obtain rfl := slot_of_decode_acompile h
    simp only [opcodeOf, firstFailing, BitVec.reduceToNat, Nat.reduceEqDiff, true_or, true_and, false_and, if_false]
  | acall k =>
    obtain rfl := slot_of_decode_acall h
    cases ha : s.accAt (bits w.toNat 16 8) <;> simp [opcodeOf, firstFailing, ha]
  | frameIn n =>
    obtain rfl := dlc_of_decode_frameIn h
    simp [opcodeOf, firstFailing]
  | _ => simp [opcodeOf, firstFailing]

/-! ### The fault a command raises -/

/-- The block is halted with code `n`, or running where `n` is 0. -/
def State.HaltedWith (t : State) (n : Nat) : Prop :=
  t.status.fault = decide (n ≠ 0) ∧ (n ≠ 0 → t.status.fcode.toNat = n)

theorem haltedWith_zero {t : State} (h : t.Running) : t.HaltedWith 0 := ⟨h, fun hn => absurd rfl hn⟩

theorem haltedWith_faulted (s : State) {n : Nat} (hlo : 1 ≤ n) (hhi : n ≤ 7) (op : Nat) :
    (faulted s n op).HaltedWith n := by
  refine ⟨(decide_eq_true (by omega)).symm, fun _ => ?_⟩
  rw [BitVec.toNat_ofNat]
  omega

section
variable {s : State} (hs : s.Running)
include hs

theorem exec_acompile_haltedWith (k : Nat) :
    ∃ t, exec (.acompile k) s = .next t ∧ t.HaltedWith (firstFailing s (.acompile k)) := by
  by_cases hk : s.cfg.nAcc ≤ k
  · rw [firstFailing, if_pos hk]
    exact ⟨_, exec_acompile_badSlot hs hk, haltedWith_faulted s (by decide) (by decide) _⟩
  rw [firstFailing, if_neg hk, ← low32_toNat]
  by_cases hd : LegalDescriptor (low32 s.opa).toNat
  · rw [if_neg (not_not_intro hd)]
    obtain ⟨a, -, ha⟩ := compileDescriptor_legal hd
    exact ⟨_, exec_acompile_legal hs (Nat.not_le.1 hk) ha, haltedWith_zero hs⟩
  · rw [if_pos hd]
    exact ⟨_, exec_acompile_badDescriptor hs (Nat.not_le.1 hk) (compileDescriptor_illegal hd),
      haltedWith_faulted s (by decide) (by decide) _⟩

theorem exec_acall_haltedWith (k : Nat) :
    ∃ t, exec (.acall k) s = .next t ∧ t.HaltedWith (firstFailing s (.acall k)) := by
  by_cases hk : s.cfg.nAcc ≤ k
  · rw [firstFailing, if_pos hk]
    exact ⟨_, exec_acall_badSlot hs hk, haltedWith_faulted s (by decide) (by decide) _⟩
  rw [firstFailing, if_neg hk]
  cases ha : s.accAt k with
  | none => exact ⟨_, exec_acall_empty hs (Nat.not_le.1 hk) ha, haltedWith_faulted s (by decide) (by decide) _⟩
  | some a =>
    by_cases hr : 8 * s.sourceLen a.src < a.start.toNat + a.len.toNat
    · simp only [if_pos hr]
      exact ⟨_, exec_acall_range hs (Nat.not_le.1 hk) ha hr, haltedWith_faulted s (by decide) (by decide) _⟩
    · simp only [if_neg hr]
      exact ⟨_, exec_acall_field hs (Nat.not_le.1 hk) ha (Nat.not_lt.1 hr), haltedWith_zero hs⟩

theorem exec_frameIn_badDlc {n : Nat} (hn : 8 < n) : exec (.frameIn n) s = .next (faulted s 0x07 0x20) := by
  rw [exec, execFrameIn, whenRunning_of_running hs, hostFrame, if_pos hn]
  rfl

theorem exec_frameIn_haltedWith (n : Nat) :
    ∃ t, exec (.frameIn n) s = .next t ∧ t.HaltedWith (firstFailing s (.frameIn n)) := by
  by_cases hn : 8 < n
  · rw [firstFailing, if_pos hn]
    exact ⟨_, exec_frameIn_badDlc hs hn, haltedWith_faulted s (by decide) (by decide) _⟩
  · rw [firstFailing, if_neg hn]
    refine ⟨_, exec_frameIn_of_running hs (Nat.not_lt.1 hn), haltedWith_zero ?_⟩
    rw [State.Running, (frameArrive_res_status _ _ _ _ _).2, hs]

theorem exec_codec_haltedWith {i : Instr} (hi : i ∈ codecCommands) : ∃ t, exec i s = .next t ∧ t.HaltedWith 0 :=
  ⟨_, exec_codec_of_running hi hs rfl, haltedWith_zero hs⟩

/-- A command raises the fault of its first check that fails. -/
theorem exec_haltedWith (i : Instr) : ∃ t, exec i s = .next t ∧ t.HaltedWith (firstFailing s i) := by
  cases i with
  | acompile k => exact exec_acompile_haltedWith hs k
  | acall k => exact exec_acall_haltedWith hs k
  | frameIn n => exact exec_frameIn_haltedWith hs n
  | _ => exact exec_codec_haltedWith hs (by decide)

theorem execWord_haltedWith (w : Word32) : ∃ t, execWord w s = .next t ∧ t.HaltedWith (expectedFault s w) := by
  cases hw : decode w with
  | instr i =>
    rw [expectedFault_of_decode hw, execWord, hw]
    exact exec_haltedWith hs i
  | illegal r =>
    rw [expectedFault_of_illegal hw, execWord_illegal hs hw, takeFault_eq_faulted]
    obtain ⟨hlo, hhi⟩ := faultCodeByte_range (illegalFault r)
    exact ⟨_, rfl, haltedWith_faulted s hlo hhi _⟩

end

/-- Settles O43: a word's checks are the decoder's and then those of its command. -/
theorem firstFailingCheckIsTheFault : Obligations.FirstFailingCheckIsTheFault :=
  fun _ w hs => execWord_haltedWith hs w

end Sys2Proof.Machine
end

section
/-! Command words (spec/30_encoding.md R82, R83, R89): the words of the formats as numbers, and that the decoder and the
encoder are inverse on well-formed commands. -/

namespace Sys2Proof.Machine

open Sys2Proof.Claims

/-! ### The words of the formats as numbers -/

theorem wordZ_toNat (op : Byte) : (wordZ op).toNat = op.toNat * 2 ^ 24 := by
  simp only [wordZ, toNat_append_eq_add, BitVec.toNat_ofNat]
  omega

theorem wordS_toNat (op : Byte) (k : Nat) : (wordS op k).toNat = op.toNat * 2 ^ 24 + k % 2 ^ 8 * 2 ^ 16 := by
  simp only [wordS, toNat_append_eq_add, BitVec.toNat_ofNat]
  omega

theorem wordF_toNat (op : Byte) (n : Nat) : (wordF op n).toNat = op.toNat * 2 ^ 24 + n % 2 ^ 4 := by
  simp only [wordF, toNat_append_eq_add, BitVec.toNat_ofNat]
  omega

/-! ### Decoding an encoded command -/

theorem decode_encode_codec : ∀ i ∈ codecCommands, decode (encode i) = .instr i := by decide

theorem formatS_wordS (op : Byte) {k : Nat} (hk : k ≤ 255) (mk : Nat → Instr) :
    formatS (wordS op k) mk = .instr (mk k) := by
  have hreserved : bits (wordS op k).toNat 0 16 = 0 := by rw [wordS_toNat, bits]; omega
  have hslot : bits (wordS op k).toNat 16 8 = k := by rw [wordS_toNat, bits]; omega
  rw [formatS_of_reserved_zero mk hreserved, hslot]

theorem formatF_wordF (op : Byte) {n : Nat} (hn : n ≤ 15) (mk : Nat → Instr) :
    formatF (wordF op n) mk = .instr (mk n) := by
  have hreserved : bits (wordF op n).toNat 4 20 = 0 := by rw [wordF_toNat, bits]; omega
  have hdlc : bits (wordF op n).toNat 0 4 = n := by rw [wordF_toNat, bits]; omega
  rw [formatF, if_pos ((extractLsb'_eq_zero_iff _ 4 20).2 hreserved), dlcField, extractLsb'_toNat_eq_bits, hdlc]

theorem opcodeNumber_wordS (op : Byte) (k : Nat) : opcodeNumber (wordS op k) = op.toNat := by
  rw [opcodeNumber, wordS_toNat, bits]
  omega

theorem opcodeNumber_wordF (op : Byte) (n : Nat) : opcodeNumber (wordF op n) = op.toNat := by
  rw [opcodeNumber, wordF_toNat, bits]
  omega

/-- Settles O1: the opcode of the word selects the command's format, which gives its field back. -/
theorem commandWordsRoundTrip : Obligations.CommandWordsRoundTrip := by
  intro i hwf
  cases i with
  | acompile k =>
    exact (decode_acompileOpcode (opcodeNumber_wordS _ k)).trans (formatS_wordS _ (of_decide_eq_true hwf) _)
  | acall k => exact (decode_acallOpcode (opcodeNumber_wordS _ k)).trans (formatS_wordS _ (of_decide_eq_true hwf) _)
  | frameIn n =>
    exact (decode_frameInOpcode (opcodeNumber_wordF _ n)).trans (formatF_wordF _ (of_decide_eq_true hwf) _)
  | _ => exact decode_encode_codec _ (by decide)

/-! ### Encoding a decoded command -/

theorem not_reservedBitsSet_of_decode {w : Word32} {i : Instr} (h : decode w = .instr i) : ¬ ReservedBitsSet w :=
  mt (decode_eq_reservedBits_iff w).2 (by simp [h])

section
variable {w : Word32} {op : Byte} (hop : opcodeNumber w = op.toNat)
include hop

theorem wordZ_of_fields (h : bits w.toNat 0 24 = 0) : wordZ op = w := by
  apply BitVec.eq_of_toNat_eq
  rw [wordZ_toNat]
  unfold opcodeNumber bits at *
  omega

theorem wordS_of_fields (h : bits w.toNat 0 16 = 0) : wordS op (bits w.toNat 16 8) = w := by
  apply BitVec.eq_of_toNat_eq
  rw [wordS_toNat]
  unfold opcodeNumber bits at *
  omega

theorem wordF_of_fields (h : bits w.toNat 4 20 = 0) : wordF op (bits w.toNat 0 4) = w := by
  apply BitVec.eq_of_toNat_eq
  rw [wordF_toNat]
  unfold opcodeNumber bits at *
  omega

end

theorem slotField_le (w : Word32) : bits w.toNat 16 8 ≤ 255 := by rw [bits]; omega

theorem dlcField_le (w : Word32) : bits w.toNat 0 4 ≤ 15 := by rw [bits]; omega

theorem encode_of_decode_codec {w : Word32} {i : Instr} (hi : i ∈ codecCommands) (h : decode w = .instr i) :
    encode i = w := by
  obtain ⟨hlo, hhi⟩ := opcodeOf_codec_range i hi
  have hop := opcodeNumber_of_decode h
  rw [encode_codec i hi]
  refine wordZ_of_fields hop (of_not_not fun hne => not_reservedBitsSet_of_decode h (.inl ⟨?_, ?_, hne⟩))
  · rw [hop]; exact hlo
  · rw [hop]; exact hhi

/-- Settles O2: a word's bits are its opcode, its field and its reserved bits, which are 0 where it decodes. -/
theorem decodedWordIsItsEncoding : Obligations.DecodedWordIsItsEncoding := by
  intro w i h
  have hop := opcodeNumber_of_decode h
  have hreserved := not_reservedBitsSet_of_decode h
  cases i with
  | acompile k =>
    obtain rfl := slot_of_decode_acompile h
    exact ⟨decide_eq_true (slotField_le w),
      wordS_of_fields hop (of_not_not fun hne => hreserved (.inr (.inl ⟨.inl hop, hne⟩)))⟩
  | acall k =>
    obtain rfl := slot_of_decode_acall h
    exact ⟨decide_eq_true (slotField_le w),
      wordS_of_fields hop (of_not_not fun hne => hreserved (.inr (.inl ⟨.inr hop, hne⟩)))⟩
  | frameIn n =>
    obtain rfl := dlc_of_decode_frameIn h
    exact ⟨decide_eq_true (dlcField_le w),
      wordF_of_fields hop (of_not_not fun hne => hreserved (.inr (.inr ⟨hop, hne⟩)))⟩
  | _ => exact ⟨rfl, encode_of_decode_codec (by decide) h⟩

/-- Settles O3: each word is decoded by evaluation. -/
theorem sampleWordsDecode : Obligations.SampleWordsDecode := by
  unfold Obligations.SampleWordsDecode
  decide

/-- Settles O6: the word's decoding is the command that `exec` runs. -/
theorem stepExecutesWrittenCommand : Obligations.StepExecutesWrittenCommand := by
  intro s w i rest hp h
  rw [step_command hp, execWord, h]
  rfl

end Sys2Proof.Machine
end

section
/-! The slots a reassembly step stores and what the step leaves of the table (spec/10_state.md R42,
spec/42_fast_packet.md R162 to R172). -/

namespace Sys2Proof.Machine

open Sys2Proof.Claims

/-! ### One slot per key -/

theorem sameKey_comm (e g : Option FpSlot) : sameKey e g = sameKey g e := by
  cases e with
  | none => cases g <;> rfl
  | some f =>
    cases g with
    | none => rfl
    | some h => simp only [sameKey, Bool.beq_comm (α := PgnValue), Bool.beq_comm (α := Byte)]

/-- An entry shares the key of a slot in use where it holds that key. -/
theorem sameKey_some (f : FpSlot) (e : Option FpSlot) : sameKey e (some f) = FpSlot.hasKey f.pgn f.sa e := by
  cases e <;> rfl

/-- Writing an entry unlike every other keeps a table of pairwise unlike entries. -/
theorem pairwise_sameKey_set {l : List (Option FpSlot)} {i : Nat} {x : Option FpSlot}
    (h : l.Pairwise fun e g => sameKey e g = false)
    (hx : ∀ j e, j ≠ i → l[j]? = some e → sameKey e x = false) :
    (l.set i x).Pairwise fun e g => sameKey e g = false := by
  rw [List.pairwise_iff_getElem] at h ⊢
  intro j k hj hk hjk
  rw [List.length_set] at hj hk
  have hother (n : Nat) (hn : n < l.length) (hne : n ≠ i) : sameKey l[n] x = false :=
    hx n _ hne (List.getElem?_eq_getElem hn)
  rw [List.getElem_set, List.getElem_set]
  by_cases hji : i = j
  · rw [if_pos hji, if_neg (by omega), sameKey_comm]
    exact hother k hk (by omega)
  · rw [if_neg hji]
    by_cases hki : i = k
    · rw [if_pos hki]
      exact hother j hj (by omega)
    · rw [if_neg hki]
      exact h j k hj hk hjk

section
variable {s t : State} {p : PgnValue} {a : Byte} {i : Nat} {f : FpSlot}

theorem tableOk_set_none (hs : s.TableOk) (ht : t.fps = s.fps.set i none) : t.TableOk := by
  obtain ⟨hslots, hkeys⟩ := hs
  rw [State.TableOk, ht]
  refine ⟨fun e he g hg => ?_, pairwise_sameKey_set hkeys fun _ e _ _ => by cases e <;> rfl⟩
  rcases List.mem_or_eq_of_mem_set he with he | rfl
  · exact hslots e he g hg
  · cases hg

theorem tableOk_set_some (h : SlotFor s p a i) (hs : s.TableOk) (hf : FpSlot.Ok f) (hkey : f.pgn = p ∧ f.sa = a)
    (ht : t.fps = s.fps.set i (some f)) : t.TableOk := by
  have hothers := h.others hs
  obtain ⟨hslots, hkeys⟩ := hs
  obtain ⟨rfl, rfl⟩ := hkey
  rw [State.TableOk, ht]
  refine ⟨fun e he g hg => ?_, pairwise_sameKey_set hkeys fun j e hj he => ?_⟩
  · rcases List.mem_or_eq_of_mem_set he with he | rfl
    · exact hslots e he g hg
    · cases hg
      exact hf
  · rw [sameKey_some]
    exact hothers j e hj he

/-! ### The slot a first fragment opens -/

theorem openedSlot_count_toNat (seq : BitVec 3) :
    (openedSlot s p a seq).count.toNat = min (s.fdlc.toNat - 2) (Memory.read s.fdata 1).toNat := by
  have hlt := (Memory.read s.fdata 1).isLt
  rw [openedSlot, BitVec.toNat_ofNat]
  omega

theorem read_openedSlot (hframe : s.FrameOk) (seq : BitVec 3) (j : Nat) :
    Memory.read (openedSlot s p a seq).buf j =
      if j < (openedSlot s p a seq).count.toNat then Memory.read s.fdata (2 + j) else 0 := by
  obtain ⟨hdlc, -, -⟩ := hframe
  rw [openedSlot_count_toNat, openedSlot, Memory.read_copyIn Memory.wf_nil, Memory.read_nil, Nat.sub_zero,
    Config.maxFpLen]
  exact if_congr (by omega) rfl rfl

theorem openedSlot_ok (hframe : s.FrameOk) (seq : BitVec 3)
    (hne : (openedSlot s p a seq).count ≠ (openedSlot s p a seq).total) : FpSlot.Ok (openedSlot s p a seq) := by
  have hcount := openedSlot_count_toNat (s := s) (p := p) (a := a) seq
  have htotal : (openedSlot s p a seq).total = Memory.read s.fdata 1 := rfl
  have hnext : (openedSlot s p a seq).next.toNat = 1 := rfl
  have hne' := mt BitVec.eq_of_toNat_eq hne
  rw [htotal] at hne'
  obtain ⟨hdlc, -, -⟩ := id hframe
  have hwf : Memory.wf (openedSlot s p a seq).buf := Memory.wf_copyIn Memory.wf_nil ..
  refine ⟨hnext.ge, by omega, by rw [htotal]; omega, by omega, hwf, Memory.within_of_read hwf fun j hj => ?_⟩
  rw [read_openedSlot hframe, if_neg (Nat.not_lt.2 hj)]

/-! ### The slot a later fragment appends to -/

theorem appendedSlot_count_toNat (hf : FpSlot.Ok f) :
    (appendedSlot s f).count.toNat = min (f.count.toNat + (s.fdlc.toNat - 1)) f.total.toNat := by
  obtain ⟨-, -, hcount, -, -, -⟩ := hf
  have hlt := f.total.isLt
  rw [appendedSlot, BitVec.toNat_ofNat, appendLen]
  omega

/-- An expected fragment's index has 5 bits, so `NEXT` stays within 32. -/
theorem next_lt_of_expected (he : Expected s f) : f.next.toNat < 32 := he.2 ▸ Nat.mod_lt _ (by decide)

theorem appendedSlot_next_toNat (he : Expected s f) : (appendedSlot s f).next.toNat = f.next.toNat + 1 := by
  have hlt := next_lt_of_expected he
  have hone : (1 : BitVec 6).toNat = 1 := rfl
  rw [appendedSlot, BitVec.toNat_add, hone]
  omega

theorem read_appendedSlot (hf : FpSlot.Ok f) (hcap : (appendedSlot s f).count.toNat ≤ Config.maxFpLen) (j : Nat) :
    Memory.read (appendedSlot s f).buf j =
      if f.count.toNat ≤ j ∧ j < (appendedSlot s f).count.toNat then
        Memory.read s.fdata (1 + (j - f.count.toNat))
      else Memory.read f.buf j := by
  have hcount := appendedSlot_count_toNat (s := s) hf
  obtain ⟨-, -, hlt, -, hwf, -⟩ := hf
  have hlen : f.count.toNat + appendLen s f = (appendedSlot s f).count.toNat := by rw [hcount, appendLen]; omega
  have hbuf : (appendedSlot s f).buf = Memory.copyIn Config.maxFpLen f.buf f.count.toNat (appendLen s f)
    (fun j => Memory.read s.fdata (1 + j)) := rfl
  rw [hbuf, Memory.read_copyIn hwf, hlen]
  exact if_congr (by omega) rfl rfl

theorem appendedSlot_count_le (hframe : s.FrameOk) (hf : FpSlot.Ok f) (he : Expected s f) :
    (appendedSlot s f).count.toNat ≤ 6 + 7 * f.next.toNat := by
  have hcount := appendedSlot_count_toNat (s := s) hf
  obtain ⟨hdlc, -, -⟩ := hframe
  obtain ⟨hnext, -, -, hle, -, -⟩ := hf
  omega

theorem appendedSlot_ok (hframe : s.FrameOk) (hf : FpSlot.Ok f) (he : Expected s f)
    (hne : (appendedSlot s f).count ≠ f.total) : FpSlot.Ok (appendedSlot s f) := by
  have hcount := appendedSlot_count_toNat (s := s) hf
  have hle := appendedSlot_count_le hframe hf he
  have hnext := appendedSlot_next_toNat he
  have hlt := next_lt_of_expected he
  have hne' := mt BitVec.eq_of_toNat_eq hne
  have htotal : (appendedSlot s f).total = f.total := rfl
  obtain ⟨-, -, hlt', -, hwf, hwithin⟩ := hf
  refine ⟨by omega, by omega, by rw [htotal]; omega, by omega, Memory.wf_copyIn hwf .., ?_⟩
  have hlen : f.count.toNat + appendLen s f = (appendedSlot s f).count.toNat := by rw [hcount, appendLen]; omega
  rw [← hlen]
  exact Memory.within_copyIn_end hwithin _ _ _

/-! ### A stored slot -/

/-- A slot that a step stores and does not complete is in order. -/
theorem Stored.ok (h : Stored s p a f) (hframe : s.FrameOk) (hs : s.TableOk) (hne : f.count ≠ f.total) :
    FpSlot.Ok f := by
  cases h with
  | opened => exact openedSlot_ok hframe _ hne
  | appended f hf _ he => exact appendedSlot_ok hframe (slotOk_of_lookup hs hf) (expects_iff.1 he) hne

/-- A message that a step completes has at most 223 bytes (spec/42_fast_packet.md R181). -/
theorem Stored.total_le (h : Stored s p a f) (hframe : s.FrameOk) (hs : s.TableOk) (hfull : f.count = f.total) :
    f.total.toNat ≤ Config.maxFpLen := by
  rw [← hfull]
  cases h with
  | opened =>
    obtain ⟨hdlc, -, -⟩ := hframe
    rw [openedSlot_count_toNat, Config.maxFpLen]
    omega
  | appended f hf _ he =>
    have hle := appendedSlot_count_le hframe (slotOk_of_lookup hs hf) (expects_iff.1 he)
    have hlt := next_lt_of_expected (expects_iff.1 he)
    rw [Config.maxFpLen]
    omega

end

end Sys2Proof.Machine
end

section
/-! What one reassembly step leaves: its completion, the keys it does not touch, and the state of the key it does
(spec/42_fast_packet.md §2, §5). -/

namespace Sys2Proof.Machine

open Sys2Proof.Claims

section
variable {s : State} {p : PgnValue} {a : Byte} {f : FpSlot}

/-! ### Completion -/

/-- A change of the table alone completes nothing. -/
theorem noCompletion_of_table {t : State} (h : t = { s with fps := t.fps }) : NoCompletion s t := by
  rw [h]
  exact ⟨rfl, rfl, rfl, rfl, rfl, rfl, rfl, rfl⟩

theorem noCompletion_refl (s : State) : NoCompletion s s := noCompletion_of_table rfl

/-- A reassembly step completes no message, or it completes a full slot that it stored. -/
theorem fpStep_completion_cases (s : State) (p : PgnValue) (a : Byte) :
    NoCompletion s (fpStep s p a) ∨
      ∃ i f, SlotFor s p a i ∧ Stored s p a f ∧ f.count = f.total ∧ fpStep s p a = complete s i f := by
  rcases fpStep_cases s p a with e | ⟨i, -, e⟩ | ⟨i, f, hslot, hstored, e⟩ <;> rw [e]
  · exact .inl (noCompletion_refl s)
  · exact .inl (noCompletion_refl s)
  · rcases storeAndCheck_cases s i f with ⟨hfull, e⟩ | ⟨-, e⟩ <;> rw [e]
    · exact .inr ⟨i, f, hslot, hstored, hfull, rfl⟩
    · exact .inl (noCompletion_refl s)

/-- `t` is `s` with one event more, the counter one further, and the event's message in the message register. -/
def Emits (s t : State) : Prop :=
  ∃ m : Msg, t.out = s.out ++ [m] ∧ t.mcount = s.mcount + 1 ∧ MessageIs t m

/-- In a table in order, a step that completes a message emits it. -/
theorem fpStep_noCompletion_or_emits (hframe : s.FrameOk) (hs : s.TableOk) (p : PgnValue) (a : Byte) :
    NoCompletion s (fpStep s p a) ∨ Emits s (fpStep s p a) := by
  refine (fpStep_completion_cases s p a).imp_right ?_
  rintro ⟨i, f, hslot, hstored, hfull, e⟩
  obtain ⟨m, hmsg, -, -, -, -, -, -, hupdate, -⟩ :=
    complete_delivers hslot hs hstored.key (hstored.total_le hframe hs hfull) fun _ _ => rfl
  rw [e]
  exact ⟨m, congrArg State.out hupdate, complete_mcount s i f, hmsg⟩

/-! ### Other keys -/

/-- A reassembly step leaves every key but its own (spec/42_fast_packet.md §5). -/
theorem fpLookup_fpStep_other {q : PgnValue} {b : Byte} (hne : ¬ (q = p ∧ b = a)) :
    fpLookup (fpStep s p a) q b = fpLookup s q b := by
  rcases fpStep_cases s p a with e | ⟨i, hi, e⟩ | ⟨i, f, hslot, hstored, e⟩ <;> rw [e]
  · exact fpLookup_set_other (.inl hi) (State.freeFp_fps s i) rfl hne
  · rcases storeAndCheck_cases s i f with ⟨-, e⟩ | ⟨-, e⟩ <;> rw [e]
    · exact fpLookup_set_other hslot (complete_fps s i f) rfl hne
    · exact fpLookup_set_other hslot (State.setFp_fps s i f)
        (FpSlot.hasKey_other (FpSlot.hasKey_some.2 hstored.key) hne) hne

/-- Settles O36: the one slot the step changes held no other key and holds none afterwards. -/
theorem keysReassembleIndependently : Obligations.KeysReassembleIndependently :=
  fun _ _ _ _ _ _ hne => fpLookup_fpStep_other hne

/-! ### The state a fragment leaves -/

/-- A stored slot that is not full is the key's state, and nothing but the table changes. -/
theorem storeAndCheck_stores {i : Nat} {t : State} (h : SlotFor s p a i) (hs : s.TableOk) (hstored : Stored s p a f)
    (hne : f.count ≠ f.total) (ht : t = storeAndCheck s i f) :
    t = { s with fps := t.fps } ∧ fpLookup t p a = some f := by
  rw [storeAndCheck, if_neg hne] at ht
  subst ht
  exact ⟨rfl, fpLookup_set_some h hs (State.setFp_fps s i f) hstored.key⟩

/-- Settles O29: such a fragment stores the slot it opens, which is not full. -/
theorem firstFragmentOpensState : Obligations.FirstFragmentOpensState := by
  intro s p a hframe hs hfirst hroom hlt
  obtain ⟨i, hslot, e⟩ := fpStep_first_of_room hfirst hroom
  have hcount := openedSlot_count_toNat (s := s) (p := p) (a := a) s.fragSeq
  rw [min_eq_left hlt.le] at hcount
  have hne : (openedSlot s p a s.fragSeq).count ≠ (openedSlot s p a s.fragSeq).total := fun he =>
    hlt.ne (hcount.symm.trans (congrArg BitVec.toNat he))
  obtain ⟨hupdate, hlookup⟩ := storeAndCheck_stores hslot hs (.opened hfirst.1) hne e
  exact ⟨hupdate, _, hlookup, rfl, hcount, extractLsb'_toNat_eq_bits _ 5 3, rfl,
    hcount ▸ read_openedSlot hframe s.fragSeq⟩

/-- An expected fragment of an incomplete message leaves the appended slot as the key's state. -/
theorem fpStep_appends (hs : s.TableOk) (hlater : IsLater s) (hf : fpLookup s p a = some f) (he : Expected s f)
    (hne : (appendedSlot s f).count ≠ f.total) :
    fpStep s p a = { s with fps := (fpStep s p a).fps } ∧ fpLookup (fpStep s p a) p a = some (appendedSlot s f) := by
  obtain ⟨i, hslot, hstore, -⟩ := fpStep_later_of_lookup hlater hf
  exact storeAndCheck_stores hslot hs (.appended f hf hlater.1 (expects_iff.2 he)) hne (hstore he)

/-- Settles O34: such a fragment stores the appended slot, which is not full. -/
theorem expectedFragmentAppends : Obligations.ExpectedFragmentAppends := by
  intro s p a f hframe hs hlater hf he hlt
  have hok := slotOk_of_lookup hs hf
  have hcount := appendedSlot_count_toNat (s := s) hok
  rw [min_eq_left hlt.le] at hcount
  have hne : (appendedSlot s f).count ≠ f.total := fun he =>
    hlt.ne (hcount.symm.trans (congrArg BitVec.toNat he))
  have hcap : (appendedSlot s f).count.toNat ≤ Config.maxFpLen := by
    have hle := appendedSlot_count_le hframe hok he
    have hnext := next_lt_of_expected he
    rw [Config.maxFpLen]
    omega
  obtain ⟨hupdate, hlookup⟩ := fpStep_appends hs hlater hf he hne
  exact ⟨hupdate, _, hlookup, rfl, hcount, appendedSlot_next_toNat he, read_appendedSlot hok hcap⟩

/-- Settles O37: the 31 later indices carry too few bytes to reach such a total. -/
theorem oversizedTotalNeverCompletes : Obligations.OversizedTotalNeverCompletes := by
  intro s p a f hframe hs hlater hf htotal
  by_cases he : Expected s f
  · have hle := appendedSlot_count_le hframe (slotOk_of_lookup hs hf) he
    have hlt := next_lt_of_expected he
    have hne : (appendedSlot s f).count ≠ f.total := fun hfull => by
      have := congrArg BitVec.toNat hfull
      omega
    obtain ⟨hupdate, hlookup⟩ := fpStep_appends hs hlater hf he hne
    refine ⟨noCompletion_of_table hupdate, fun h32 => by omega, fun g hg => ?_⟩
    obtain rfl : appendedSlot s f = g := Option.some.inj (hlookup.symm.trans hg)
    exact ⟨rfl, by omega⟩
  · obtain ⟨hupdate, hlookup⟩ := unexpectedFragmentDiscards s p a f hs hlater hf he
    exact ⟨noCompletion_of_table hupdate, fun _ => hlookup, fun g hg => by cases hlookup.symm.trans hg⟩

end

end Sys2Proof.Machine
end

section
/-! The invariant (spec/10_state.md §4 to §8): the reset state meets it and every operation keeps it. -/

namespace Sys2Proof.Machine

open Sys2Proof.Claims

/-! ### Reset -/

theorem Memory.within_nil (cap : Nat) : Memory.within cap [] := fun _ h => absurd h List.not_mem_nil

theorem tableOk_resetOf (c : Config) : (State.resetOf c).TableOk := by
  refine ⟨fun e he f hf => ?_, List.pairwise_replicate.2 (.inr rfl)⟩
  obtain rfl := List.eq_of_mem_replicate he
  cases hf

theorem accessorsOk_resetOf (c : Config) : (State.resetOf c).AccessorsOk := by
  intro e he
  obtain rfl := List.eq_of_mem_replicate he
  rfl

theorem inv_resetOf {c : Config} (hc : c.Legal) : (State.resetOf c).Inv :=
  ⟨⟨hc, List.length_replicate, List.length_replicate⟩, ⟨rfl, rfl⟩, ⟨Nat.zero_le _, Memory.wf_nil, Memory.within_nil _⟩,
    ⟨Nat.zero_le _, Memory.wf_nil, Memory.within_nil _⟩, accessorsOk_resetOf c, tableOk_resetOf c,
    fun _ h => absurd h List.not_mem_nil⟩

/-- Settles O45: the buffers, the slots and the table of a reset block are empty. -/
theorem resetStateMeetsInvariant : Obligations.ResetStateMeetsInvariant :=
  ⟨fun _ hc => inv_resetOf hc, inv_resetOf (by decide)⟩

section
variable {s t : State}

theorem inv_applyReset (h : s.Inv) : s.applyReset.Inv := by
  obtain ⟨⟨hc, -, -⟩, -, -, -, -, -, hout⟩ := h
  obtain ⟨hsizes, hstatus, hframe, hmessage, hacc, htable, -⟩ := inv_resetOf hc
  exact ⟨hsizes, hstatus, hframe, hmessage, hacc, htable, hout⟩

/-- Settles O47: both states are written out in the definitions of reset. -/
theorem resetGivesResetValues : Obligations.ResetGivesResetValues :=
  ⟨fun _ _ hp => step_reset hp, fun _ => rfl⟩

/-! ### Commands -/

theorem inv_takeFault (h : s.Inv) (code : FaultCode) (op : Byte) : (s.takeFault code op).Inv := by
  obtain ⟨hsizes, -, hrest⟩ := h
  exact ⟨hsizes, faultCodeByte_range code, hrest⟩

theorem inLimits_of_compileDescriptor {d : Word32} {a : Accessor} (h : compileDescriptor d = some a) :
    a.inLimits = true := by
  unfold compileDescriptor at h
  split at h
  · cases h
  split at h
  · cases h
  · obtain ⟨hlimits, ha⟩ := Option.ite_none_right_eq_some.1 h
    cases ha
    exact hlimits

theorem inv_setAcc (h : s.Inv) (k : Nat) {a : Accessor} (ha : a.inLimits = true) : (s.setAcc k a).Inv := by
  obtain ⟨⟨hc, hlength, hfps⟩, hstatus, hframe, hmessage, hacc, hrest⟩ := h
  refine ⟨⟨hc, List.length_set.trans hlength, hfps⟩, hstatus, hframe, hmessage, fun e he => ?_, hrest⟩
  rcases List.mem_or_eq_of_mem_set he with he | rfl
  · exact hacc e he
  · exact ha

theorem inv_writeReg (h : s.Inv) (r : MmioReg) (v : Word32) : (writeReg s r v).Inv := by
  rw [writeReg_eq]
  exact h

/-! ### Frames -/

theorem wf_latchedData (n : Nat) (w : Word64) : Memory.wf (latchedData n w) := Memory.wf_tabulate ..

theorem within_latchedData {n : Nat} (hn : n ≤ 8) (w : Word64) : Memory.within n (latchedData n w) :=
  Memory.within_of_read (wf_latchedData n w) fun i hi => by rw [read_latchedData hn, if_neg (Nat.not_lt.2 hi)]

theorem frameOk_latchFrame {n : Nat} (hn : n ≤ 8) (s : State) (t : Word64) (id : Word32) (w : Word64) :
    (latchFrame s t id n w).FrameOk := by
  have hdlc : (latchFrame s t id n w).fdlc.toNat = n := by
    rw [latchFrame_fdlc, BitVec.toNat_ofNat]
    omega
  rw [State.FrameOk, hdlc]
  exact ⟨hn, wf_latchedData n w, within_latchedData hn w⟩

theorem inv_latchFrame (h : s.Inv) {n : Nat} (hn : n ≤ 8) (t : Word64) (id : Word32) (w : Word64) :
    (latchFrame s t id n w).Inv := by
  obtain ⟨hsizes, hstatus, -, hrest⟩ := h
  exact ⟨hsizes, hstatus, frameOk_latchFrame hn s t id w, hrest⟩

section
variable {p : PgnValue} {a : Byte} {i : Nat} {f : FpSlot}

theorem inv_freeFp (h : s.Inv) (i : Nat) : (s.freeFp i).Inv := by
  obtain ⟨⟨hc, hacc, hlength⟩, hstatus, hframe, hmessage, haccs, htable, hout⟩ := h
  exact ⟨⟨hc, hacc, List.length_set.trans hlength⟩, hstatus, hframe, hmessage, haccs,
    tableOk_set_none htable (State.freeFp_fps s i), hout⟩

theorem inv_setFp (h : s.Inv) (hslot : SlotFor s p a i) (hstored : Stored s p a f) (hne : f.count ≠ f.total) :
    (s.setFp i f).Inv := by
  obtain ⟨⟨hc, hacc, hlength⟩, hstatus, hframe, hmessage, haccs, htable, hout⟩ := h
  exact ⟨⟨hc, hacc, List.length_set.trans hlength⟩, hstatus, hframe, hmessage, haccs,
    tableOk_set_some hslot htable (hstored.ok hframe htable hne) hstored.key (State.setFp_fps s i f), hout⟩

theorem wf_completedBuf (f : FpSlot) : Memory.wf (completedBuf f) := Memory.wf_tabulate ..

theorem messageOk_complete (hcap : f.total.toNat ≤ Config.maxFpLen) (s : State) (i : Nat) :
    (complete s i f).MessageOk := by
  rw [State.MessageOk, complete_mlen, complete_mbuf]
  refine ⟨hcap, wf_completedBuf f, Memory.within_of_read (wf_completedBuf f) fun j hj => ?_⟩
  rw [read_completedBuf hcap, if_neg (Nat.not_lt.2 hj)]

theorem outOk_complete (hcap : f.total.toNat ≤ Config.maxFpLen) (hout : s.OutOk) (i : Nat) :
    (complete s i f).OutOk := by
  intro m hm
  rw [complete_out, List.mem_append, List.mem_singleton] at hm
  rcases hm with hm | rfl
  · exact hout m hm
  · exact ⟨by simp [State.completionMsg, firstBytes], hcap⟩

theorem inv_complete (h : s.Inv) (hcap : f.total.toNat ≤ Config.maxFpLen) (i : Nat) : (complete s i f).Inv := by
  obtain ⟨⟨hc, hacc, hlength⟩, hstatus, hframe, -, haccs, htable, hout⟩ := h
  exact ⟨⟨hc, hacc, List.length_set.trans hlength⟩, hstatus, hframe, messageOk_complete hcap s i, haccs,
    tableOk_set_none htable (complete_fps s i f), outOk_complete hcap hout i⟩

theorem inv_storeAndCheck (h : s.Inv) (hslot : SlotFor s p a i) (hstored : Stored s p a f) :
    (storeAndCheck s i f).Inv := by
  obtain ⟨-, -, hframe, -, -, htable, -⟩ := id h
  rcases storeAndCheck_cases s i f with ⟨hfull, e⟩ | ⟨hne, e⟩ <;> rw [e]
  · exact inv_complete h (hstored.total_le hframe htable hfull) i
  · exact inv_setFp h hslot hstored hne

theorem inv_fpStep (h : s.Inv) (p : PgnValue) (a : Byte) : (fpStep s p a).Inv := by
  rcases fpStep_cases s p a with e | ⟨i, -, e⟩ | ⟨i, f, hslot, hstored, e⟩ <;> rw [e]
  · exact h
  · exact inv_freeFp h i
  · exact inv_storeAndCheck h hslot hstored

end

theorem inv_frameArrive (h : s.Inv) {n : Nat} (hn : n ≤ 8) (t : Word64) (id : Word32) (w : Word64) :
    (frameArrive s t id n w).Inv := by
  have hlatch := inv_latchFrame h hn t id w
  rcases frameArrive_cases s t id n w with ⟨-, e⟩ | ⟨-, e⟩ <;> rw [e]
  · exact hlatch
  · exact inv_fpStep hlatch _ _

theorem inv_portArrive (h : s.Inv) (f : PortFrame) : (portArrive s f).Inv := by
  rcases portArrive_cases s f with ⟨-, e⟩ | ⟨-, e⟩ <;> rw [e]
  · exact h
  · exact inv_frameArrive h f.short _ _ _

/-! ### Every step -/

theorem Effect.inv {w : Word32} (he : Effect s w t) (h : s.Inv) : t.Inv := by
  cases he with
  | fault code => exact inv_takeFault h code _
  | result v => exact h
  | slot k a _ _ ha => exact inv_setAcc h k (inLimits_of_compileDescriptor ha)
  | frame n hn => exact inv_frameArrive h hn _ _ _

theorem inv_execWord {w : Word32} (h : s.Inv) (hexec : execWord w s = .next t) : t.Inv := by
  rcases execWord_cases hexec with ⟨-, rfl⟩ | ⟨-, he⟩
  · exact h
  · exact he.inv h

/-- Settles O46: by the kinds of step; the steps to come and the host's responses are no part of the invariant. -/
theorem stepKeepsInvariant : Obligations.StepKeepsInvariant := by
  intro s t h hstep
  rcases step_cases hstep with ⟨-, rfl⟩ | ⟨rest, hread | hrefused | hcmd | hreg | hframe | hreset⟩
  · exact h
  · obtain ⟨_, _, _, -, rfl⟩ := hread
    exact h
  · obtain ⟨_, _, _, -, -, rfl⟩ := hrefused
    exact h
  · obtain ⟨_, _, _, -, -, hexec⟩ := hcmd
    exact inv_execWord (s := { s with pending := rest }.respond .done) h hexec
  · obtain ⟨_, _, v, r, -, -, -, rfl⟩ := hreg
    exact inv_writeReg (s := { s with pending := rest }.respond .done) h r v
  · obtain ⟨f, -, rfl⟩ := hframe
    exact inv_portArrive (s := { s with pending := rest }) h f
  · obtain ⟨-, rfl⟩ := hreset
    exact inv_applyReset (s := { s with pending := rest }) h

end

end Sys2Proof.Machine
end

section
/-! What a frame arrival changes (spec/42_fast_packet.md R160, R178): the frame register, the message register with its
counter and event, and the table. -/

namespace Sys2Proof.Machine

open Sys2Proof.Claims

section
variable (s : State) (t : Word64) (id : Word32) (n : Nat) (w : Word64)

/-- A frame arrival changes the frame and message registers, the counter, `OUT` and the table, and nothing else. -/
theorem frameArrive_eq_update :
    frameArrive s t id n w =
      { s with
        ftime := t
        fid := id
        fdlc := BitVec.ofNat 4 n
        fdata := latchedData n w
        mtime := (frameArrive s t id n w).mtime
        mid := (frameArrive s t id n w).mid
        mpgn := (frameArrive s t id n w).mpgn
        msa := (frameArrive s t id n w).msa
        mlen := (frameArrive s t id n w).mlen
        mbuf := (frameArrive s t id n w).mbuf
        mcount := (frameArrive s t id n w).mcount
        out := (frameArrive s t id n w).out
        fps := (frameArrive s t id n w).fps } := by
  rcases frameArrive_cases s t id n w with ⟨-, e⟩ | ⟨-, e⟩ <;> rw [e]
  · rfl
  · exact fpStep_eq_update _ _ _

@[simp] theorem frameArrive_cfg : (frameArrive s t id n w).cfg = s.cfg := by
  rw [frameArrive_eq_update]
@[simp] theorem frameArrive_opa : (frameArrive s t id n w).opa = s.opa := by
  rw [frameArrive_eq_update]
@[simp] theorem frameArrive_opb : (frameArrive s t id n w).opb = s.opb := by
  rw [frameArrive_eq_update]
@[simp] theorem frameArrive_opc : (frameArrive s t id n w).opc = s.opc := by
  rw [frameArrive_eq_update]
@[simp] theorem frameArrive_res : (frameArrive s t id n w).res = s.res :=
  (frameArrive_res_status s t id n w).1
@[simp] theorem frameArrive_status : (frameArrive s t id n w).status = s.status :=
  (frameArrive_res_status s t id n w).2
@[simp] theorem frameArrive_fdata : (frameArrive s t id n w).fdata = latchedData n w := by
  rw [frameArrive_eq_update]
@[simp] theorem frameArrive_acc : (frameArrive s t id n w).acc = s.acc := by
  rw [frameArrive_eq_update]
@[simp] theorem frameArrive_pending : (frameArrive s t id n w).pending = s.pending := by
  rw [frameArrive_eq_update]
@[simp] theorem frameArrive_bus : (frameArrive s t id n w).bus = s.bus := by
  rw [frameArrive_eq_update]

/-- A frame arrival completes no message or moves the counter. -/
theorem frameArrive_noCompletion_or_mcount :
    NoCompletion s (frameArrive s t id n w) ∨ (frameArrive s t id n w).mcount = s.mcount + 1 := by
  rcases frameArrive_cases s t id n w with ⟨-, e⟩ | ⟨-, e⟩ <;> rw [e]
  · exact .inl (noCompletion_refl s)
  · rcases fpStep_completion_cases (latchFrame s t id n w) (pgnOf id) (sourceAddress id) with
      hno | ⟨i, f, -, -, -, e⟩
    · exact .inl hno
    · exact .inr (e ▸ complete_mcount _ i f)

theorem fpLookup_frameArrive_other {q : PgnValue} {b : Byte} (hne : ¬ (q = pgnOf id ∧ b = sourceAddress id)) :
    fpLookup (frameArrive s t id n w) q b = fpLookup s q b := by
  rcases frameArrive_cases s t id n w with ⟨-, e⟩ | ⟨-, e⟩ <;> rw [e]
  · rfl
  · exact fpLookup_fpStep_other hne

end

/-- Settles O25: the data length is checked before the frame arrives. -/
theorem frameInBadDlcFaults : Obligations.FrameInBadDlcFaults :=
  fun _ _ hs hn => exec_frameIn_badDlc hs hn

/-- `FRAME_IN` changes at most `STATUS`, and that only for a bad data length, or it makes a frame arrive. -/
theorem exec_frameIn_cases {s t : State} {n : Nat} (h : exec (.frameIn n) s = .next t) :
    (t = { s with status := t.status } ∧ (n ≤ 8 → t.status = s.status)) ∨
      (s.Running ∧ n ≤ 8 ∧ t = frameArrive s s.opc (low32 s.opa) n s.opb) := by
  cases hs : s.status.fault with
  | true =>
    rw [exec_of_halted hs] at h
    cases h
    exact .inl ⟨rfl, fun _ => rfl⟩
  | false =>
    by_cases hn : 8 < n
    · rw [exec_frameIn_badDlc hs hn] at h
      cases h
      exact .inl ⟨rfl, fun hle => absurd hn (Nat.not_lt.2 hle)⟩
    · rw [exec_frameIn_of_running hs (Nat.not_lt.1 hn)] at h
      cases h
      exact .inr ⟨hs, Nat.not_lt.1 hn, rfl⟩

/-- Settles O26: the command changes at most `STATUS`, or it leaves what a frame arrival leaves. -/
theorem frameInFrame : Obligations.FrameInFrame := by
  intro s t n h
  rcases exec_frameIn_cases h with ⟨e, hstatus⟩ | ⟨hs, hn, rfl⟩
  · rw [e]
    exact ⟨rfl, rfl, rfl, rfl, rfl, rfl, rfl, rfl, hstatus, fun _ => rfl, fun _ => noCompletion_refl s,
      fun _ _ _ => rfl, fun _ _ _ _ => rfl⟩
  · refine ⟨frameArrive_cfg .., frameArrive_opa .., frameArrive_opb .., frameArrive_opc .., frameArrive_res ..,
      frameArrive_acc .., frameArrive_pending .., frameArrive_bus .., fun _ => frameArrive_status ..,
      fun hor => absurd hor (by simp [hn, hs]), fun hcount => ?_, fun hframe i hi => ?_,
      fun _ q b hne => fpLookup_frameArrive_other _ _ _ _ _ hne⟩
    · refine (frameArrive_noCompletion_or_mcount _ _ _ _ _).resolve_right fun hmoved => ?_
      exact absurd (hmoved.symm.trans hcount) (by bv_omega)
    · obtain ⟨hdlc, -, hwithin⟩ := hframe
      rw [frameArrive_fdata, read_latchedData hn, if_neg (by omega), Memory.read_of_within hwithin (by omega)]

end Sys2Proof.Machine
end

section
/-! What every step other than reset can change: the message register with its counter and event, the operand
registers, the accessor slots; and that every step answers. -/

namespace Sys2Proof.Machine

open Sys2Proof.Claims

/-! ### The kinds of step -/

/-- `s` with other values of the model's own two fields. -/
abbrev State.withPlumbing (s : State) (pending : List Event) (bus : List BusResponse) : State :=
  { s with pending := pending, bus := bus }

/-- A step other than reset changes only the model's own two fields, or besides these has the effect of a word written
to `CMD`, a register write or a frame arrival. -/
theorem step_effect_cases {s t : State} (h : step s = .next t) (hne : s.pending.head? ≠ some .reset) :
    ∃ q b, t = s.withPlumbing q b ∨
      (∃ w, s.pending.head? = some (.write .w32 s.cfg.base w) ∧ Effect (s.withPlumbing q b) w t) ∨
      (∃ width addr v r, s.pending.head? = some (.write width addr v) ∧ regAtAccess s.cfg width addr = some r ∧
        r ≠ .cmd ∧ t = writeReg (s.withPlumbing q b) r v) ∨
      ∃ f : PortFrame, t = frameArrive (s.withPlumbing q b) f.time f.id f.bytes.length f.word := by
  rcases step_cases h with ⟨-, rfl⟩ | ⟨rest, hread | hrefused | hcmd | hreg | hframe | hreset⟩
  · exact ⟨t.pending, t.bus, .inl rfl⟩
  · obtain ⟨_, _, r, -, rfl⟩ := hread
    exact ⟨rest, s.bus ++ [r], .inl rfl⟩
  · obtain ⟨_, _, _, -, -, rfl⟩ := hrefused
    exact ⟨rest, s.bus ++ [.busError], .inl rfl⟩
  · obtain ⟨_, _, w, hp, hr, hexec⟩ := hcmd
    obtain ⟨rfl, rfl⟩ := eq_base_of_regAtAccess_cmd hr
    refine ⟨rest, s.bus ++ [.done], ?_⟩
    rcases execWord_cases hexec with ⟨-, rfl⟩ | ⟨-, he⟩
    · exact .inl rfl
    · exact .inr (.inl ⟨w, by rw [hp, List.head?_cons], he⟩)
  · obtain ⟨width, addr, v, r, hp, hr, hcmd, rfl⟩ := hreg
    exact ⟨rest, s.bus ++ [.done], .inr (.inr (.inl ⟨width, addr, v, r, by rw [hp, List.head?_cons], hr, hcmd, rfl⟩))⟩
  · obtain ⟨f, -, rfl⟩ := hframe
    refine ⟨rest, s.bus, ?_⟩
    rcases portArrive_cases { s with pending := rest } f with ⟨-, e⟩ | ⟨-, e⟩ <;> rw [e]
    · exact .inl rfl
    · exact .inr (.inr (.inr ⟨f, rfl⟩))
  · exact absurd (by rw [hreset.1, List.head?_cons]) hne

/-! ### Completion -/

theorem frameArrive_noCompletion_or_emits {s : State} (hs : s.TableOk) {n : Nat} (hn : n ≤ 8) (t : Word64)
    (id : Word32) (w : Word64) :
    NoCompletion s (frameArrive s t id n w) ∨ Emits s (frameArrive s t id n w) := by
  rcases frameArrive_cases s t id n w with ⟨-, e⟩ | ⟨-, e⟩ <;> rw [e]
  · exact .inl (noCompletion_refl s)
  · exact fpStep_noCompletion_or_emits (s := latchFrame s t id n w) (frameOk_latchFrame hn s t id w) hs _ _

theorem Effect.noCompletion_or_emits {s t : State} {w : Word32} (he : Effect s w t) (hs : s.TableOk) :
    NoCompletion s t ∨ Emits s t := by
  cases he with
  | fault code => exact .inl (noCompletion_refl s)
  | result v => exact .inl (noCompletion_refl s)
  | slot k a => exact .inl (noCompletion_refl s)
  | frame n hn => exact frameArrive_noCompletion_or_emits hs hn _ _ _

theorem noCompletion_writeReg (s : State) (r : MmioReg) (v : Word32) : NoCompletion s (writeReg s r v) := by
  rw [writeReg_eq]
  exact noCompletion_refl s

/-- Settles O38: only a frame, from the host or at the port, can complete a message. -/
theorem oneEventPerCompletion : Obligations.OneEventPerCompletion := by
  intro s t ⟨_, _, _, _, _, htable, _⟩ hstep hne
  obtain ⟨q, b, rfl | ⟨w, -, he⟩ | ⟨_, _, v, r, -, -, -, rfl⟩ | ⟨f, rfl⟩⟩ := step_effect_cases hstep hne
  · exact .inl (noCompletion_refl s)
  · exact he.noCompletion_or_emits htable
  · exact .inl (noCompletion_writeReg (s.withPlumbing q b) r v)
  · exact frameArrive_noCompletion_or_emits (s := s.withPlumbing q b) htable f.short _ _ _

/-! ### Operand registers -/

/-- `t` has the operand registers of `s`. -/
def SameOperands (s t : State) : Prop := t.opa = s.opa ∧ t.opb = s.opb ∧ t.opc = s.opc

theorem sameOperands_refl (s : State) : SameOperands s s := ⟨rfl, rfl, rfl⟩

theorem sameOperands_frameArrive (s : State) (t : Word64) (id : Word32) (n : Nat) (w : Word64) :
    SameOperands s (frameArrive s t id n w) :=
  ⟨frameArrive_opa .., frameArrive_opb .., frameArrive_opc ..⟩

theorem Effect.sameOperands {s t : State} {w : Word32} (he : Effect s w t) : SameOperands s t := by
  cases he with
  | fault code => exact sameOperands_refl s
  | result v => exact sameOperands_refl s
  | slot k a => exact sameOperands_refl s
  | frame n hn => exact sameOperands_frameArrive _ _ _ _ _

/-- The registers that a write changes stand at the operand offsets (spec/20_memory.md R50, R54). -/
theorem operandOffset_of_regAtOffset {c : Config} {off : Nat} {r : MmioReg} (h : regAtOffset c off = some r)
    (hcmd : r ≠ .cmd) (hro : r.readOnly = false) : 0x008 ≤ off ∧ off ≤ 0x01C := by
  have hnamed : ∀ e ∈ namedOffsets, e.2 ≠ .cmd → e.2.readOnly = false → 0x008 ≤ e.1 ∧ e.1 ≤ 0x01C := by decide
  unfold regAtOffset at h
  split at h
  · cases h
    cases hro
  split at h
  · cases h
    cases hro
  · obtain ⟨l₁, l₂, hl, -⟩ := List.lookup_eq_some_iff.1 h
    exact hnamed (off, r) (by simp [hl]) hcmd hro

theorem operandOffset_of_regAtAccess {c : Config} {width : Width} {addr : Nat} {r : MmioReg}
    (h : regAtAccess c width addr = some r) (hcmd : r ≠ .cmd) (hro : r.readOnly = false) :
    width = .w32 ∧ ∃ off, addr = c.base + off ∧ 0x008 ≤ off ∧ off ≤ 0x01C := by
  obtain ⟨⟨hw, hbase, -⟩, hoff⟩ := Option.ite_none_right_eq_some.1 h
  exact ⟨hw, addr - c.base, by omega, operandOffset_of_regAtOffset hoff hcmd hro⟩

/-- Settles O56: commands and frames keep the operand registers, and so does a write to a read-only register. -/
theorem operandsChangeOnlyByHostWrites : Obligations.OperandsChangeOnlyByHostWrites := by
  intro s t hstep hne hwrite
  obtain ⟨q, b, rfl | ⟨w, -, he⟩ | ⟨width, addr, v, r, hp, hr, hcmd, rfl⟩ | ⟨f, rfl⟩⟩ := step_effect_cases hstep hne
  · exact sameOperands_refl s
  · exact he.sameOperands
  · cases hro : r.readOnly with
    | true =>
      rw [writeReg_readOnly _ hro]
      exact sameOperands_refl s
    | false =>
      obtain ⟨rfl, off, rfl, hlo, hhi⟩ := operandOffset_of_regAtAccess hr hcmd hro
      exact absurd hp (hwrite off v hlo hhi)
  · exact sameOperands_frameArrive _ _ _ _ _

/-! ### Accessor slots -/

theorem writeReg_acc (s : State) (r : MmioReg) (v : Word32) : (writeReg s r v).acc = s.acc := by rw [writeReg_eq]

/-- A command word leaves the slots, or compiles one and leaves every other. -/
theorem Effect.acc_cases {s t : State} {w : Word32} (he : Effect s w t) :
    t.acc = s.acc ∨ ∃ k, decode w = .instr (.acompile k) ∧ ∀ j, j ≠ k → t.acc[j]? = s.acc[j]? := by
  cases he with
  | fault code => exact .inl rfl
  | result v => exact .inl rfl
  | slot k a hw => exact .inr ⟨k, hw, fun j hj => List.getElem?_set_ne (Ne.symm hj)⟩
  | frame n hn => exact .inl (frameArrive_acc _ _ _ _ _)

/-- Settles O57: of all steps, only the effect of a word written to `CMD` touches a slot. -/
theorem slotsChangeOnlyByAcompile : Obligations.SlotsChangeOnlyByAcompile := by
  intro s t hstep hne
  obtain ⟨q, b, rfl | ⟨w, hp, he⟩ | ⟨_, _, v, r, -, -, -, rfl⟩ | ⟨f, rfl⟩⟩ := step_effect_cases hstep hne
  · exact .inl rfl
  · exact he.acc_cases.imp_right fun ⟨k, hw, hother⟩ => ⟨w, k, hp, hw, hother⟩
  · exact .inl (writeReg_acc (s.withPlumbing q b) r v)
  · exact .inl (frameArrive_acc _ _ _ _ _)

/-! ### Every step answers -/

theorem execWord_answers (s : State) (w : Word32) : ∃ t, execWord w s = .next t := by
  cases hs : s.status.fault with
  | true => exact ⟨s, execWord_of_halted hs w⟩
  | false =>
    obtain ⟨t, ht, -⟩ := execWord_haltedWith hs w
    exact ⟨t, ht⟩

/-- Settles O44: an agent step other than a command answers by definition, and every command word answers. -/
theorem everyStepAnswers : Obligations.EveryStepAnswers := by
  intro s
  cases hp : s.pending with
  | nil => exact ⟨s, step_nil hp⟩
  | cons e rest =>
    rw [step_cons hp]
    cases e with
    | read width addr => exact ⟨_, rfl⟩
    | frame f => exact ⟨_, rfl⟩
    | reset => exact ⟨_, rfl⟩
    | write width addr v =>
      rw [takeEvent, hostWrite]
      split
      · exact ⟨_, rfl⟩
      · exact execWord_answers _ v
      · exact ⟨_, rfl⟩

end Sys2Proof.Machine
end

section
/-! Reads and writes of the window in sequence: the words of the narrower registers, a read that is made again, `LI`,
and a compiled slot that is read back. -/

namespace Sys2Proof.Machine

open Sys2Proof.Claims

/-! ### The words of the narrower registers -/

/-- `INFO` as a number, where both slot counts fit their bytes (spec/10_state.md R33). -/
theorem infoWord_eq_ofNat {c : Config} (hc : c.Legal) :
    infoWord c = BitVec.ofNat 32 (0x01 * 2 ^ 24 + 0xDF * 2 ^ 16 + c.nFp * 2 ^ 8 + c.nAcc) := by
  obtain ⟨-, hacc, -, hfp⟩ := hc
  apply eq_ofNat_of_toNat_eq
  simp only [infoWord, toNat_append_eq_add, Config.layoutRevision, Config.maxFpLen, BitVec.toNat_ofNat]
  omega

theorem setWidth_eq_ofNat {n : Nat} (x : BitVec n) : x.setWidth 32 = BitVec.ofNat 32 x.toNat :=
  (BitVec.ofNat_toNat 32 x).symm

theorem word_eq_ofNat (x : Word32) : x = BitVec.ofNat 32 x.toNat := eq_ofNat_of_toNat_eq rfl

/-- Each of the other named registers reads as its number (spec/20_memory.md R50). -/
theorem narrowValues_read {s : State} (hc : s.cfg.Legal) :
    ∀ e ∈ narrowValues s, ∃ r, (e.1, r) ∈ namedOffsets ∧ readReg s r = BitVec.ofNat 32 e.2 := by
  simp only [narrowValues, List.forall_mem_cons]
  exact
    ⟨⟨.cmd, by decide, rfl⟩, ⟨.status, by decide, statusWord_eq_ofNat s.status⟩,
      ⟨.mcount, by decide, word_eq_ofNat s.mcount⟩, ⟨.info, by decide, infoWord_eq_ofNat hc⟩,
      ⟨.fid, by decide, word_eq_ofNat s.fid⟩, ⟨.fdlc, by decide, setWidth_eq_ofNat s.fdlc⟩,
      ⟨.mid, by decide, word_eq_ofNat s.mid⟩, ⟨.mpgn, by decide, setWidth_eq_ofNat s.mpgn⟩,
      ⟨.msa, by decide, setWidth_eq_ofNat s.msa⟩, ⟨.mlen, by decide, setWidth_eq_ofNat s.mlen⟩,
      List.forall_mem_nil _⟩

/-- Settles O52: each offset has a named register, which reads as its number. -/
theorem registerReadsGiveTheirWords : Obligations.RegisterReadsGiveTheirWords := by
  intro s off v rest hc hmem hp
  obtain ⟨r, hr, hword⟩ := narrowValues_read hc _ hmem
  rw [step_read_reg (regAtAccess_named s.cfg hr) hp, hword]

/-! ### Runs -/

theorem run_zero (s : State) : Host.Core.run Sys2Proof.core 0 s = .next s := rfl

theorem run_succ {s t : State} (h : step s = .next t) (k : Nat) :
    Host.Core.run Sys2Proof.core (k + 1) s = Host.Core.run Sys2Proof.core k t := by
  have hcore : Sys2Proof.core.step s = .next t := h
  simp only [Host.Core.run, hcore]

theorem run_two {s t u : State} (h : step s = .next t) (h' : step t = .next u) :
    Host.Core.run Sys2Proof.core 2 s = .next u :=
  (run_succ h 1).trans ((run_succ h' 0).trans (run_zero u))

/-! ### Reads -/

/-- What a read answers. -/
def readResponse (s : State) (width : Width) (addr : Nat) : BusResponse :=
  match regAtAccess s.cfg width addr with
  | none => .busError
  | some r => .data (readReg s r)

theorem step_read_response {s : State} {width : Width} {addr : Nat} {rest : List Event}
    (hp : s.pending = .read width addr :: rest) :
    step s = .next (responded s rest (readResponse s width addr)) := by
  unfold readResponse
  split
  · next hr => exact step_read_refused hr hp
  · next hr => exact step_read_reg hr hp

/-- No read answers from the steps to come or from the responses given. -/
theorem readResponse_responded (s : State) (rest : List Event) (r : BusResponse) (width : Width) (addr : Nat) :
    readResponse (responded s rest r) width addr = readResponse s width addr := by
  have hreg (x : MmioReg) : readReg (responded s rest r) x = readReg s x := by cases x <;> rfl
  simp only [readResponse, hreg]

/-- Settles O55: a read changes only the model's own two fields, from which no read answers. -/
theorem readsHaveNoSideEffects : Obligations.ReadsHaveNoSideEffects := by
  intro s width addr rest hp
  have hfirst := step_read_response hp
  have hsecond := step_read_response (s := responded s (.read width addr :: rest) (readResponse s width addr)) rfl
  refine ⟨readResponse s width addr, hfirst, ?_⟩
  rw [run_two hfirst hsecond, readResponse_responded, responded, List.append_assoc]
  rfl

/-! ### `LI` -/

theorem operandLo_mem (x : OperandReg) : (regOffset (operandLo x), operandLo x) ∈ namedOffsets := by
  cases x <;> decide

theorem operandHi_mem (x : OperandReg) : (regOffset (operandHi x), operandHi x) ∈ namedOffsets := by
  cases x <;> decide

theorem low32_withLow32 (x : Word64) (v : Word32) : low32 (withLow32 x v) = v := by
  apply BitVec.eq_of_toNat_eq
  rw [low32_toNat, withLow32, toNat_append_eq_add, bits]
  omega

theorem high32_append_low32 (v : Word64) : high32 v ++ low32 v = v := by
  apply BitVec.eq_of_toNat_eq
  rw [toNat_append_eq_add, high32_toNat, low32_toNat, bits, bits]
  omega

/-- Writing both halves of a value writes the value. -/
theorem withHigh32_withLow32 (x v : Word64) : withHigh32 (withLow32 x (low32 v)) (high32 v) = v := by
  rw [withHigh32, low32_withLow32, high32_append_low32]

/-- The two writes of `LI` leave the operand register with the value (spec/30_encoding.md R91). -/
theorem writeReg_operandHalves (s : State) (x : OperandReg) (v : Word64) :
    writeReg (writeReg s (operandLo x) (low32 v)) (operandHi x) (high32 v) = withOperand s x v := by
  cases x <;> simp only [operandLo, operandHi, writeReg, withOperand, withHigh32_withLow32]

/-- A write neither reads nor writes the model's own two fields. -/
theorem writeReg_responded (s : State) (rest : List Event) (b : BusResponse) (r : MmioReg) (v : Word32) :
    writeReg (responded s rest b) r v = responded (writeReg s r v) rest b := by
  cases r <;> rfl

theorem step_write_named {s : State} {off : Nat} {r : MmioReg} {v : Word32} {rest : List Event}
    (hr : (off, r) ∈ namedOffsets) (hne : r ≠ .cmd) (hp : s.pending = .write .w32 (s.cfg.base + off) v :: rest) :
    step s = .next (responded (writeReg s r v) rest .done) := by
  rw [step_write_reg (regAtAccess_named s.cfg hr) hne hp, writeReg_responded]

/-- Settles O60: the two writes replace the register's halves. -/
theorem liLoadsOperandRegister : Obligations.LiLoadsOperandRegister := by
  intro s x v rest hp
  have hlo := step_write_named (operandLo_mem x) (by cases x <;> decide) hp
  have hcfg : (writeReg s (operandLo x) (low32 v)).cfg = s.cfg := (follows_writeReg s _ _).cfg
  have hhi := step_write_named (v := high32 v) (rest := rest) (operandHi_mem x) (by cases x <;> decide)
    (s := responded (writeReg s (operandLo x) (low32 v)) (programEvents s.cfg [.sw (operandHi x) (high32 v)] ++ rest)
      .done) (by rw [hcfg]; rfl)
  have hbus : (withOperand s x v).bus = s.bus := by cases x <;> rfl
  refine (run_two hlo hhi).trans (congrArg _ ?_)
  rw [writeReg_responded, writeReg_operandHalves, responded, responded, hbus, List.append_assoc]
  rfl

/-! ### A compiled slot -/

theorem decide_toNat_of_lt_two {n : Nat} (h : n < 2) : (decide (n = 1)).toNat = n := by
  interval_cases n <;> rfl

/-- The view of a slot that holds a legal descriptor is the descriptor with bit 31 set (spec/10_state.md R40). -/
theorem slotNumber_of_holdsDescriptor {a : Accessor} {d : Nat} (hd : d < 2 ^ 32) (hlegal : LegalDescriptor d)
    (h : HoldsDescriptor a d) : slotNumber (some a) = d + 2 ^ 31 := by
  obtain ⟨h23, h27, h30, -⟩ := hlegal
  obtain ⟨hstart, hlen, hbe, hsg, hw64, hsrc⟩ := h
  have hflag (i : Nat) : (decide (bits d i 1 = 1)).toNat = bits d i 1 :=
    decide_toNat_of_lt_two (Nat.mod_lt _ (by decide))
  rw [slotNumber, hstart, hlen, hbe, hsg, hw64, hsrc, hflag, hflag, hflag]
  unfold bits at *
  omega

/-- Settles O15: slot k's view is the number of the descriptor it was compiled from. -/
theorem compiledSlotReadsBack : Obligations.CompiledSlotReadsBack := by
  intro s t k rest hs ⟨hc, hsize, _⟩ hk hlegal hexec
  obtain ⟨-, -, hstores⟩ := acompileStoresDescriptor.2 s k hs
  obtain ⟨a, hholds, hcompile⟩ := hstores hk hlegal
  obtain rfl : s.setAcc k a = t := Host.Outcome.next.inj (hcompile.symm.trans hexec)
  have hslot : (s.setAcc k a).accAt k = some a := by simp [State.accAt, hsize, hk]
  have hview := slotNumber_of_holdsDescriptor (Nat.mod_lt _ (by decide)) hlegal hholds
  rw [Nat.add_assoc, ← hview, ← hslot]
  exact slotWindowGivesSlotViews { s.setAcc k a with
    pending := .read .w32 ((s.setAcc k a).cfg.base + (0x200 + 4 * k)) :: rest } k rest hc hk rfl

end Sys2Proof.Machine
end

section
/-! Canonical PGNs (spec/40_pgn_codec.md §4): the values `pgn` gives are those that `canId` carries back. -/

namespace Sys2Proof.Machine

open Sys2Proof.Claims

theorem canonicalPgn_pgnNumber (id : Nat) : CanonicalPgn (pgnNumber id) := by
  unfold CanonicalPgn pgnNumber bits
  split <;> omega

theorem canIdOf_toNat (p : Word32) : (canIdOf p).toNat = p.toNat % 2 ^ 17 * 2 ^ 8 + 0xFE := by
  simp only [canIdOf, toNat_append_eq_add, extractLsb'_toNat_eq_bits, bits, Config.defaultSa, BitVec.toNat_ofNat]
  omega

/-- The identifier of a value carries back its low 17 bits, without the low byte in the PDU1 range (R103, R104). -/
theorem pgnNumber_canIdOf (p : Word32) :
    pgnNumber (canIdOf p).toNat =
      if bits p.toNat 8 8 < 0xF0 then p.toNat % 2 ^ 17 - bits p.toNat 0 8 else p.toNat % 2 ^ 17 := by
  have hformat : bits (canIdOf p).toNat 16 8 = bits p.toNat 8 8 := by rw [canIdOf_toNat, bits, bits]; omega
  rw [pgnNumber, hformat]
  refine if_congr Iff.rfl ?_ ?_ <;> rw [canIdOf_toNat] <;> unfold bits <;> omega

theorem canonicalPgn_iff_canIdOf (p : Word32) : CanonicalPgn p.toNat ↔ (pgnOf (canIdOf p)).toNat = p.toNat := by
  rw [pgnOf_toNat, pgnNumber_canIdOf]
  unfold CanonicalPgn bits
  split <;> omega

theorem canonicalPgn_iff_image (p : Word32) : CanonicalPgn p.toNat ↔ ∃ id : Word32, (pgnOf id).toNat = p.toNat := by
  refine ⟨fun h => ⟨canIdOf p, (canonicalPgn_iff_canIdOf p).1 h⟩, fun ⟨id, hid⟩ => ?_⟩
  rw [← hid, pgnOf_toNat]
  exact canonicalPgn_pgnNumber id.toNat

/-- Settles O13: `pgn` undoes `canId` on the canonical values, which therefore are its image. -/
theorem canonicalPgnsAreTheImage : Obligations.CanonicalPgnsAreTheImage := by
  refine ⟨canonicalPgn_iff_image, canonicalPgn_iff_canIdOf, fun p q hp hq h => BitVec.eq_of_toNat_eq ?_⟩
  calc p.toNat = (pgnOf (canIdOf p)).toNat := ((canonicalPgn_iff_canIdOf p).1 hp).symm
    _ = (pgnOf (canIdOf q)).toNat := by rw [h]
    _ = q.toNat := (canonicalPgn_iff_canIdOf q).1 hq

theorem low32_setWidth_pgn_toNat (p : PgnValue) : (low32 (p.setWidth 64)).toNat = p.toNat := by
  rw [low32_toNat, BitVec.toNat_setWidth, bits]
  omega

/-- A PGN survives the identifier built for it. -/
theorem pgnOf_canIdOf_pgnOf (id : Word32) : pgnOf (canIdOf (low32 ((pgnOf id).setWidth 64))) = pgnOf id := by
  have himage := (canonicalPgn_iff_image _).2 ⟨id, (low32_setWidth_pgn_toNat (pgnOf id)).symm⟩
  apply BitVec.eq_of_toNat_eq
  rw [(canonicalPgn_iff_canIdOf _).1 himage, low32_setWidth_pgn_toNat]

/-- Settles O12: the first result is a PGN, which `CANID` and `PGN` give back. -/
theorem pgnSurvivesCanidRoundTrip : Obligations.PgnSurvivesCanidRoundTrip := by
  intro s hs
  refine ⟨_, _, _, exec_codec_of_running (by decide) hs rfl, exec_codec_of_running (by decide) hs rfl,
    exec_codec_of_running (by decide) hs rfl, ?_⟩
  simp only [codecResult, low32_setWidth, pgnOf_canIdOf_pgnOf]

end Sys2Proof.Machine
end

section
/-! Laws of extraction (spec/41_bit_accessor.md §2, §4): the two orders compared, and the word forms over `OPB`. -/

namespace Sys2Proof.Machine

open Sys2Proof.Claims

/-! ### Fields of numbers, bit by bit -/

theorem testBit_bits (x lo len i : Nat) : (bits x lo len).testBit i = (decide (i < len) && x.testBit (lo + i)) := by
  rw [bits, Nat.testBit_mod_two_pow, Nat.testBit_div_two_pow, Nat.add_comm]

theorem bits_eq_bits {x y lo lo' len : Nat} (h : ∀ r < len, x.testBit (lo + r) = y.testBit (lo' + r)) :
    bits x lo len = bits y lo' len := by
  refine Nat.eq_of_testBit_eq fun i => ?_
  rw [testBit_bits, testBit_bits]
  by_cases hi : i < len
  · rw [h i hi]
  · rw [decide_eq_false hi, Bool.false_and, Bool.false_and]

theorem eq_bits {x y lo len : Nat} (hx : x < 2 ^ len) (h : ∀ r < len, x.testBit r = y.testBit (lo + r)) :
    x = bits y lo len := by
  have hself : bits x 0 len = x := by rw [bits, Nat.pow_zero, Nat.div_one, Nat.mod_eq_of_lt hx]
  rw [← hself]
  exact bits_eq_bits fun r hr => by rw [Nat.zero_add, h r hr]

/-! ### The two orders -/

/-- The bit that stands at `j` once the bytes of a field of `len` bits are reversed. -/
def mirroredBit (len j : Nat) : Nat := len - 8 - 8 * (j / 8) + j % 8

section
variable {bytes : Nat → Byte} {start len : Nat}

/-- One touched byte has one order. -/
theorem assembleField_singleByte (h : start / 8 = (start + len - 1) / 8) (be : Bool) :
    assembleField bytes start len be = pushChunk bytes start len 0 (start / 8) := by
  have htouched : touchedBytes start len = [start / 8] := by
    rw [touchedBytes, ← h, Nat.add_sub_cancel_left]
    rfl
  rw [assembleField, htouched, List.reverse_singleton, ite_self]
  rfl

/-- Byte-aligned at both ends, a big-endian field is read with its bytes reversed. -/
theorem testBit_assembleField_be_aligned (hstart : start % 8 = 0) (hlen : len % 8 = 0) {j : Nat} (hj : j < len) :
    (assembleField bytes start len true).testBit j = bitOf bytes (start + mirroredBit len j) := by
  have hbit := testBit_assembleField_be (bytes := bytes) (start := start) (len := len)
    (m := start + mirroredBit len j) (by omega) (by omega) (by unfold mirroredBit; omega)
  have hplace : start + len - 1 - chunkHi start len ((start + mirroredBit len j) / 8) +
      (start + mirroredBit len j - chunkLo start ((start + mirroredBit len j) / 8)) = j := by
    unfold mirroredBit chunkHi chunkLo
    omega
  rwa [hplace] at hbit

end

/-- Settles O20: such a field touches one byte, and the list of one byte is its own reverse. -/
theorem singleByteFieldIgnoresOrder : Obligations.SingleByteFieldIgnoresOrder := by
  intro s a _ hbyte
  simp only [State.accessorValue, extractField, assembleField_singleByte hbyte]

theorem accessorValue_unsigned_toNat (s : State) {a : Accessor} (hsg : a.sg = false) (hlo : 1 ≤ a.len.toNat)
    (hhi : a.len.toNat ≤ 64) : (s.accessorValue a).toNat = s.unsignedField a := by
  rw [accessorValue_unsigned s hsg, BitVec.toNat_ofNat]
  exact Nat.mod_eq_of_lt ((assembleField_lt hlo a.be).trans_le (Nat.pow_le_pow_right (by decide) hhi))

/-- Settles O21: bit r of both bytes is one buffer bit. -/
theorem alignedBigEndianReversesBytes : Obligations.AlignedBigEndianReversesBytes := by
  intro s a hsg hlo hhi hstart hlen i hi
  rw [accessorValue_unsigned_toNat s (a := { a with be := true }) hsg hlo hhi,
    accessorValue_unsigned_toNat s (a := { a with be := false }) hsg hlo hhi]
  refine bits_eq_bits fun r hr => ?_
  have hplace : mirroredBit a.len.toNat (8 * i + r) = a.len.toNat - 8 - 8 * i + r := by unfold mirroredBit; omega
  rw [State.unsignedField, State.unsignedField, testBit_assembleField_be_aligned hstart hlen (by omega), hplace,
    testBit_assembleField_le hlo, decide_eq_true (by omega), Bool.true_and]

/-! ### The word forms over `OPB` -/

/-- Bit `r` of byte `i` of a packed word (spec/20_memory.md R59). -/
theorem getLsbD_unpack (w : Word64) {i r : Nat} (hi : i < 8) (hr : r < 8) :
    (unpack w i).getLsbD r = w.toNat.testBit (56 - 8 * i + r) := by
  rw [unpack, if_pos hi, BitVec.getLsbD, extractLsb'_toNat_eq_bits, testBit_bits, decide_eq_true hr, Bool.true_and]

/-- A bit of the byte-reversed word is the buffer bit of its number. -/
theorem testBit_pack_reversed (w : Word64) {k : Nat} (hk : k < 64) :
    (pack fun i => unpack w (7 - i)).toNat.testBit k = bitOf (unpack w) k := by
  have hplace : 56 - 8 * (7 - k / 8) + k % 8 = k := by omega
  have hbit := getLsbD_unpack (pack fun i => unpack w (7 - i)) (i := 7 - k / 8) (r := k % 8) (by omega) (by omega)
  have hbyte : 7 - (7 - k / 8) = k / 8 := by omega
  rw [hplace, unpack_pack _ (by omega), hbyte] at hbit
  exact hbit.symm

/-- Settles O22: bit by bit, each value is the field of the word it is said to be. -/
theorem operandWordForms : Obligations.OperandWordForms := by
  intro s a hsrc hsg hlen hend
  have hvalue := accessorValue_unsigned_toNat s hsg hlen (by omega)
  have hlt := assembleField_lt (bytes := s.bufByte a.src) (start := a.start.toNat) hlen a.be
  have hbytes : s.bufByte a.src = unpack s.opb := by rw [hsrc]; rfl
  rw [hvalue, State.unsignedField]
  refine ⟨fun hbe => eq_bits hlt fun j hj => ?_, fun hbe hstart haligned => eq_bits hlt fun j hj => ?_⟩
  · rw [hbe, testBit_assembleField_le hlen, decide_eq_true hj, Bool.true_and, hbytes,
      testBit_pack_reversed s.opb (by omega)]
  · have hbyte : (a.start.toNat + mirroredBit a.len.toNat j) / 8 < 8 := by unfold mirroredBit; omega
    have hplace : 56 - 8 * ((a.start.toNat + mirroredBit a.len.toNat j) / 8) +
        (a.start.toNat + mirroredBit a.len.toNat j) % 8 = 64 - a.start.toNat - a.len.toNat + j := by
      unfold mirroredBit
      omega
    rw [hbe, testBit_assembleField_be_aligned hstart haligned hj, hbytes, bitOf,
      getLsbD_unpack _ hbyte (by omega), hplace]

/-! ### Two sources of one frame -/

/-- Eight bytes latched are the bytes of the payload word. -/
theorem read_latchedData_eight (w : Word64) : Memory.read (latchedData 8 w) = unpack w := by
  funext i
  rw [latchedData, Memory.read_tabulate, unpack]
  by_cases hi : i < 8
  · rw [if_pos hi, if_pos hi, if_pos hi]
  · rw [if_neg hi, if_neg hi]

/-- Settles O23: after `FRAME_IN 8` both sources hold the bytes of `OPB`. -/
theorem frameAndOperandSourcesAgree : Obligations.FrameAndOperandSourcesAgree := by
  intro s j k a hs hj hk haj hak hlo hend
  have hrun : (frameArrive s s.opc (low32 s.opa) 8 s.opb).Running := by
    rw [State.Running, frameArrive_status, hs]
  have hslot (i : Nat) : (frameArrive s s.opc (low32 s.opa) 8 s.opb).accAt i = s.accAt i := by
    rw [State.accAt, frameArrive_acc, State.accAt]
  have hbytes : (frameArrive s s.opc (low32 s.opa) 8 s.opb).bufByte .frame =
      (frameArrive s s.opc (low32 s.opa) 8 s.opb).bufByte .opb := by
    funext i
    simp only [State.bufByte, frameArrive_fdata, frameArrive_opb, read_latchedData_eight]
  refine ⟨_, _, _, exec_frameIn_of_running hs le_rfl,
    exec_acall_field hrun (by rwa [frameArrive_cfg]) ((hslot j).trans haj) hend,
    exec_acall_field hrun (by rwa [frameArrive_cfg]) ((hslot k).trans hak) hend, ?_⟩
  simp only [State.writeRes_res, State.accessorValue, hbytes]

end Sys2Proof.Machine
end

section
/-! Whole messages (spec/42_fast_packet.md §1 to §3): what each fragment of a message leaves, and the run over all of
them. -/

namespace Sys2Proof.Machine

open Sys2Proof.Claims

/-! ### The bytes of a fragment -/

section
variable {seq : BitVec 3} {l : List Byte}

theorem paddedByte_of_lt {i : Nat} (h : i < l.length) : paddedByte l i = l.getD i 0 := by
  rw [paddedByte, List.getD_eq_getElem _ _ h, List.getD_eq_getElem _ _ h]

theorem fragmentByte_header_toNat {j : Nat} (hj : j < 32) :
    (fragmentByte seq l j 0).toNat = seq.toNat * 32 + j := by
  have hseq := seq.isLt
  rw [fragmentByte, if_pos rfl, BitVec.toNat_ofNat]
  omega

theorem fragmentByte_total_toNat (hl : l.length ≤ 223) : (fragmentByte seq l 0 1).toNat = l.length := by
  rw [fragmentByte, if_neg (by decide), if_pos rfl, if_pos rfl, BitVec.toNat_ofNat]
  omega

theorem fragmentByte_first (i : Nat) : fragmentByte seq l 0 (2 + i) = paddedByte l i := by
  rw [fragmentByte, if_neg (by omega), if_pos rfl, if_neg (by omega), Nat.add_sub_cancel_left]

theorem fragmentByte_later {j : Nat} (hj : 1 ≤ j) (i : Nat) :
    fragmentByte seq l j (1 + i) = paddedByte l (6 + 7 * (j - 1) + i) := by
  rw [fragmentByte, if_neg (by omega), if_neg (by omega), Nat.add_sub_cancel_left]

end

/-! ### A fragment in the frame register -/

/-- The state in which the reassembly step of a port frame is taken: the frame latched and its event gone. -/
def latchedAt (s : State) (rest : List Event) (f : PortFrame) : State :=
  latchFrame { s with pending := rest } f.time f.id f.bytes.length f.word

/-- A frame of a PGN in `FP_PGNS` at the port of a running block is one reassembly step. -/
theorem step_fragment {s : State} {f : PortFrame} {rest : List Event} (hs : s.Running)
    (hfed : pgnOf f.id ∈ s.cfg.fpPgns) (hp : s.pending = .frame f :: rest) :
    step s = .next (fpStep (latchedAt s rest f) (pgnOf f.id) (sourceAddress f.id)) := by
  rw [step_frame_of_running hs hp, frameArrive, if_pos hfed, latchedAt]

theorem inv_latchedAt {s : State} (h : s.Inv) (rest : List Event) (f : PortFrame) : (latchedAt s rest f).Inv :=
  inv_latchFrame (s := { s with pending := rest }) h f.short _ _ _

section
variable {s : State} {rest : List Event} {time : Word64} {id : Word32} {seq : BitVec 3} {l : List Byte} {j : Nat}

theorem fdlc_latchedAt_fragment : (latchedAt s rest (fragmentFrame time id seq l j)).fdlc.toNat = 8 := by
  rw [latchedAt, latchFrame_fdlc, fragmentFrame, List.length_map, List.length_range]
  rfl

theorem read_latchedAt_fragment {i : Nat} (hi : i < 8) :
    Memory.read (latchedAt s rest (fragmentFrame time id seq l j)).fdata i = fragmentByte seq l j i := by
  rw [latchedAt, latchFrame_fdata, read_latchedData_word, fragmentFrame, List.getD_eq_getElem _ _ (by simpa using hi),
    List.getElem_map, List.getElem_range]

/-- The header of fragment `j` holds the frame index and the sequence identifier (spec/42_fast_packet.md R161). -/
theorem header_latchedAt_fragment (hj : j < 32) :
    bits (Memory.read (latchedAt s rest (fragmentFrame time id seq l j)).fdata 0).toNat 0 5 = j ∧
      bits (Memory.read (latchedAt s rest (fragmentFrame time id seq l j)).fdata 0).toNat 5 3 = seq.toNat := by
  have hseq := seq.isLt
  rw [read_latchedAt_fragment (by decide), fragmentByte_header_toNat hj]
  unfold bits
  omega

theorem isFirst_fragment : IsFirst (latchedAt s rest (fragmentFrame time id seq l 0)) :=
  ⟨by rw [fdlc_latchedAt_fragment]; decide, (header_latchedAt_fragment (by decide)).1⟩

theorem isLater_fragment (hlo : 1 ≤ j) (hhi : j < 32) : IsLater (latchedAt s rest (fragmentFrame time id seq l j)) :=
  ⟨by rw [fdlc_latchedAt_fragment]; decide, by rw [(header_latchedAt_fragment hhi).1]; omega⟩

end

/-! ### The state of a message -/

/-- The slot of a message after its first `j` fragments: the total, the bytes they carry, and fragment `j` next. -/
structure HoldsPrefix (f : FpSlot) (seq : BitVec 3) (l : List Byte) (j : Nat) : Prop where
  total : f.total.toNat = l.length
  count : f.count.toNat = 6 + 7 * (j - 1)
  seq : f.seq.toNat = seq.toNat
  next : f.next.toNat = j
  bytes : ∀ i < f.count.toNat, Memory.read f.buf i = l.getD i 0

/-- A running block in the invariant that has taken the first `j` fragments of a message. -/
structure Collecting (s : State) (id : Word32) (seq : BitVec 3) (l : List Byte) (j : Nat) : Prop where
  inv : s.Inv
  running : s.Running
  fed : pgnOf id ∈ s.cfg.fpPgns
  slot : ∃ f, fpLookup s (pgnOf id) (sourceAddress id) = some f ∧ HoldsPrefix f seq l j

/-- `t` is a running block that has, unlike `s`, delivered message `l` once, with no state left for its key. -/
structure Delivered (s t : State) (time : Word64) (id : Word32) (l : List Byte) (rest : List Event) : Prop where
  out : t.out = s.out ++ [{ time := time, id := id, pgn := pgnOf id, sa := sourceAddress id,
                            len := BitVec.ofNat 8 l.length, bytes := l }]
  mcount : t.mcount = s.mcount + 1
  mlen : t.mlen.toNat = l.length
  mbuf : ∀ i, Memory.read t.mbuf i = l.getD i 0
  slot : fpLookup t (pgnOf id) (sourceAddress id) = none
  running : t.Running
  pending : t.pending = rest

/-- `t` has the events and the counter of `s`, and `rest` still to come. -/
structure Quiet (s t : State) (rest : List Event) : Prop where
  out : t.out = s.out
  mcount : t.mcount = s.mcount
  pending : t.pending = rest

theorem Delivered.of_quiet {s t u : State} {time : Word64} {id : Word32} {l : List Byte} {rest rest' : List Event}
    (h : Delivered t u time id l rest) (hq : Quiet s t rest') : Delivered s u time id l rest := by
  exact { h with out := hq.out ▸ h.out, mcount := hq.mcount ▸ h.mcount }

theorem map_getD_range (l : List Byte) : (List.range l.length).map (fun i => l.getD i 0) = l := by
  refine List.ext_getElem (by simp) fun i hi _ => ?_
  rw [List.getElem_map, List.getElem_range, List.getD_eq_getElem]

section
variable {s t : State} {rest : List Event} {time : Word64} {id : Word32} {seq : BitVec 3} {l : List Byte} {j : Nat}

/-- A step that completes the message with its bytes delivers it. -/
theorem delivered_of_delivers {total : Byte} {byte : Nat → Byte} {f : PortFrame} (hs : s.Running)
    (htotal : total.toNat = l.length) (hbyte : ∀ i < l.length, byte i = l.getD i 0)
    (h : Delivers (latchedAt s rest f) t (pgnOf f.id) (sourceAddress f.id) total byte) :
    Delivered s t f.time f.id l rest := by
  obtain ⟨m, ⟨-, -, -, -, hmlen, hbytes⟩, htime, hid, hpgn, hsa, hlen, hmbuf, hupdate, hslot⟩ := h
  have hlength : t.mlen.toNat = l.length := by rw [← hmlen, hlen, htotal]
  have hread (i : Nat) : Memory.read t.mbuf i = l.getD i 0 := by
    rw [hmbuf, htotal]
    by_cases hi : i < l.length
    · rw [if_pos hi, hbyte i hi]
    · rw [if_neg hi, List.getD_eq_default _ _ (Nat.not_lt.1 hi)]
  have hmsg : m = { time := f.time, id := f.id, pgn := pgnOf f.id, sa := sourceAddress f.id,
                    len := BitVec.ofNat 8 l.length, bytes := l } := by
    cases m
    rw [Msg.mk.injEq]
    exact ⟨htime, hid, hpgn, hsa, hlen.trans (eq_ofNat_of_toNat_eq htotal),
      hbytes.trans (by rw [hlength, funext hread, map_getD_range])⟩
  have hout : t.out = s.out ++ [m] := by rw [hupdate]; rfl
  have hmcount : t.mcount = s.mcount + 1 := by rw [hupdate]; rfl
  have hrunning : t.Running := by rw [hupdate]; exact hs
  have hpending : t.pending = rest := by rw [hupdate]; rfl
  exact ⟨hmsg ▸ hout, hmcount, hlength, hread, hslot, hrunning, hpending⟩

/-- A fragment that changes only the table, and leaves the key with one fragment more, continues the message. -/
theorem collecting_of_table {f : FpSlot} {e : PortFrame} (h : s.Inv) (hs : s.Running)
    (hfed : pgnOf e.id ∈ s.cfg.fpPgns) (hp : s.pending = .frame e :: rest)
    (ht : t = fpStep (latchedAt s rest e) (pgnOf e.id) (sourceAddress e.id))
    (htable : t = { latchedAt s rest e with fps := t.fps })
    (hslot : fpLookup t (pgnOf e.id) (sourceAddress e.id) = some f) (hf : HoldsPrefix f seq l j) :
    step s = .next t ∧ Collecting t e.id seq l j ∧ Quiet s t rest := by
  have hstep : step s = .next t := ht ▸ step_fragment hs hfed hp
  have hout : t.out = s.out := by rw [htable]; rfl
  have hmcount : t.mcount = s.mcount := by rw [htable]; rfl
  have hrunning : t.Running := by rw [htable]; exact hs
  have hpending : t.pending = rest := by rw [htable]; rfl
  exact ⟨hstep, ⟨stepKeepsInvariant s t h hstep, hrunning, (follows_step hstep).cfg ▸ hfed, f, hslot, hf⟩,
    ⟨hout, hmcount, hpending⟩⟩

/-! ### The first fragment -/

theorem read_total_fragment (hl : l.length ≤ 223) :
    (Memory.read (latchedAt s rest (fragmentFrame time id seq l 0)).fdata 1).toNat = l.length := by
  rw [read_latchedAt_fragment (by decide), fragmentByte_total_toNat hl]

theorem read_first_fragment {i : Nat} (hi : i < 6) (hlt : i < l.length) :
    Memory.read (latchedAt s rest (fragmentFrame time id seq l 0)).fdata (2 + i) = l.getD i 0 := by
  rw [read_latchedAt_fragment (by omega), fragmentByte_first, paddedByte_of_lt hlt]

section
variable (h : s.Inv) (hs : s.Running) (hfed : pgnOf id ∈ s.cfg.fpPgns)
  (hroom : HasRoom s (pgnOf id) (sourceAddress id)) (hl : l.length ≤ 223)
  (hp : s.pending = .frame (fragmentFrame time id seq l 0) :: rest)
include h hs hfed hroom hl hp

/-- A message of at most 6 bytes is delivered by its first fragment. -/
theorem step_first_delivers (hshort : l.length ≤ 6) : ∃ t, step s = .next t ∧ Delivered s t time id l rest := by
  obtain ⟨-, -, hframe, -, -, htable, -⟩ := inv_latchedAt h rest (fragmentFrame time id seq l 0)
  have htotal := read_total_fragment (s := s) (rest := rest) (time := time) (id := id) (seq := seq) hl
  have hdelivers := completingFragmentDelivers.1 _ (pgnOf id) (sourceAddress id) hframe htable isFirst_fragment hroom
    (by rw [htotal, fdlc_latchedAt_fragment]; exact hshort)
  exact ⟨_, step_fragment (f := fragmentFrame time id seq l 0) hs hfed hp,
    delivered_of_delivers (f := fragmentFrame time id seq l 0) hs htotal
      (fun i hi => read_first_fragment (by omega) hi) hdelivers⟩

/-- The first fragment of a longer message opens its state. -/
theorem step_first_collects (hlong : 6 < l.length) :
    ∃ t, step s = .next t ∧ Collecting t id seq l 1 ∧ Quiet s t rest := by
  obtain ⟨-, -, hframe, -, -, htable, -⟩ := inv_latchedAt h rest (fragmentFrame time id seq l 0)
  have htotal := read_total_fragment (s := s) (rest := rest) (time := time) (id := id) (seq := seq) hl
  have hdlc := fdlc_latchedAt_fragment (s := s) (rest := rest) (time := time) (id := id) (seq := seq) (l := l) (j := 0)
  obtain ⟨hupdate, f, hslot, hftotal, hcount, hseq, hnext, hbuf⟩ :=
    firstFragmentOpensState _ (pgnOf id) (sourceAddress id) hframe htable isFirst_fragment hroom
      (by rw [htotal, hdlc]; exact hlong)
  rw [hdlc] at hcount
  refine ⟨_, collecting_of_table (e := fragmentFrame time id seq l 0) h hs hfed hp rfl hupdate hslot
    ⟨hftotal ▸ htotal, hcount, hseq.trans (header_latchedAt_fragment (by decide)).2, hnext ▸ rfl, fun i hi => ?_⟩⟩
  rw [hbuf, hdlc, if_pos (by omega), read_first_fragment (by omega) (by omega)]

end

/-! ### A later fragment -/

theorem read_later_fragment {i : Nat} (hj : 1 ≤ j) (hlo : 6 + 7 * (j - 1) ≤ i) (hhi : i < 6 + 7 * j)
    (hlt : i < l.length) :
    Memory.read (latchedAt s rest (fragmentFrame time id seq l j)).fdata (1 + (i - (6 + 7 * (j - 1)))) =
      l.getD i 0 := by
  rw [read_latchedAt_fragment (by omega), fragmentByte_later hj, Nat.add_sub_cancel' hlo, paddedByte_of_lt hlt]

section
variable (h : Collecting s id seq l j) (hj : 1 ≤ j) (hl : l.length ≤ 223)
  (hp : s.pending = .frame (fragmentFrame time id seq l j) :: rest)
include h hj hl hp

theorem step_last_delivers (hlast : l.length ≤ 6 + 7 * j) :
    ∃ t, step s = .next t ∧ Delivered s t time id l rest := by
  obtain ⟨hinv, hs, hfed, f, hf, htotal, hcount, hseq, hnext, hbytes⟩ := h
  obtain ⟨-, -, hframe, -, -, htable, -⟩ := inv_latchedAt hinv rest (fragmentFrame time id seq l j)
  obtain ⟨-, -, hlt, -⟩ := slotOk_of_lookup htable hf
  obtain ⟨hidx, hseq'⟩ := header_latchedAt_fragment (s := s) (rest := rest) (time := time) (id := id) (seq := seq)
    (l := l) (j := j) (by omega)
  have hdelivers := completingFragmentDelivers.2 _ (pgnOf id) (sourceAddress id) f hframe htable
    (isLater_fragment hj (by omega)) hf ⟨hseq'.trans hseq.symm, hidx.trans hnext.symm⟩
    (by rw [fdlc_latchedAt_fragment]; omega)
  refine ⟨_, step_fragment (f := fragmentFrame time id seq l j) hs hfed hp,
    delivered_of_delivers (f := fragmentFrame time id seq l j) hs htotal (fun i hi => ?_) hdelivers⟩
  by_cases hi' : i < f.count.toNat
  · rw [if_pos hi', hbytes i hi']
  · rw [if_neg hi', hcount, read_later_fragment hj (by omega) (by omega) hi]

theorem step_later_collects (hmore : 6 + 7 * j < l.length) :
    ∃ t, step s = .next t ∧ Collecting t id seq l (j + 1) ∧ Quiet s t rest := by
  obtain ⟨hinv, hs, hfed, f, hf, htotal, hcount, hseq, hnext, hbytes⟩ := h
  obtain ⟨-, -, hframe, -, -, htable, -⟩ := inv_latchedAt hinv rest (fragmentFrame time id seq l j)
  have hdlc := fdlc_latchedAt_fragment (s := s) (rest := rest) (time := time) (id := id) (seq := seq) (l := l) (j := j)
  obtain ⟨hidx, hseq'⟩ := header_latchedAt_fragment (s := s) (rest := rest) (time := time) (id := id) (seq := seq)
    (l := l) (j := j) (by omega)
  obtain ⟨hupdate, g, hslot, hkept, hgcount, hgnext, hgbuf⟩ :=
    expectedFragmentAppends _ (pgnOf id) (sourceAddress id) f hframe htable (isLater_fragment hj (by omega)) hf
      ⟨hseq'.trans hseq.symm, hidx.trans hnext.symm⟩ (by rw [hdlc]; omega)
  rw [hdlc] at hgcount
  have hgtotal : g.total = f.total := by rw [hkept]
  have hgseq : g.seq = f.seq := by rw [hkept]
  refine ⟨_, collecting_of_table (e := fragmentFrame time id seq l j) hinv hs hfed hp rfl hupdate hslot
    ⟨hgtotal ▸ htotal, by omega, hgseq ▸ hseq, by omega, fun i hi => ?_⟩⟩
  rw [hgbuf]
  by_cases hi' : i < f.count.toNat
  · rw [if_neg (by omega), hbytes i hi']
  · rw [if_pos (by omega), hcount, read_later_fragment hj (by omega) (by omega) (by omega)]

end

end

/-! ### The whole run -/

/-- Fragments `j` to `j + r - 1` of a message. -/
def fragmentsFrom (times : Nat → Word64) (id : Word32) (seq : BitVec 3) (l : List Byte) (j r : Nat) : List Event :=
  (List.range' j r).map fun i => .frame (fragmentFrame (times i) id seq l i)

theorem fragmentEvents_eq (times : Nat → Word64) (id : Word32) (seq : BitVec 3) (l : List Byte) :
    fragmentEvents times id seq l = fragmentsFrom times id seq l 0 (fragmentCount l.length) := by
  rw [fragmentEvents, fragmentsFrom, List.range_eq_range']

theorem fragmentsFrom_succ (times : Nat → Word64) (id : Word32) (seq : BitVec 3) (l : List Byte) (j r : Nat) :
    fragmentsFrom times id seq l j (r + 1) =
      .frame (fragmentFrame (times j) id seq l j) :: fragmentsFrom times id seq l (j + 1) r := rfl

section
variable {times : Nat → Word64} {id : Word32} {seq : BitVec 3} {l : List Byte} {rest : List Event}

theorem run_succ_of_quiet {s t : State} {time : Word64} {r : Nat} {rest' : List Event} (hstep : step s = .next t)
    (hq : Quiet s t rest')
    (h : ∃ u, Host.Core.run Sys2Proof.core r t = .next u ∧ Delivered t u time id l rest) :
    ∃ u, Host.Core.run Sys2Proof.core (r + 1) s = .next u ∧ Delivered s u time id l rest := by
  obtain ⟨u, hrun, hd⟩ := h
  exact ⟨u, (run_succ hstep r).trans hrun, hd.of_quiet hq⟩

/-- From a block that has taken the first `j` fragments, the run over the others delivers the message. -/
theorem run_later_fragments (hl : l.length ≤ 223) (r : Nat) :
    ∀ (j : Nat) (s : State), 1 ≤ j → j + (r + 1) = fragmentCount l.length → Collecting s id seq l j →
      s.pending = fragmentsFrom times id seq l j (r + 1) ++ rest →
      ∃ t, Host.Core.run Sys2Proof.core (r + 1) s = .next t ∧
        Delivered s t (times (fragmentCount l.length - 1)) id l rest := by
  induction r with
  | zero =>
    intro j s hj hcount h hp
    rw [fragmentsFrom_succ] at hp
    unfold fragmentCount at hcount
    obtain ⟨t, hstep, hd⟩ := step_last_delivers h hj hl hp (by omega)
    have hlast : fragmentCount l.length - 1 = j := by unfold fragmentCount; omega
    exact ⟨t, run_succ hstep 0, hlast ▸ hd⟩
  | succ r ih =>
    intro j s hj hcount h hp
    rw [fragmentsFrom_succ] at hp
    have hmore : 6 + 7 * j < l.length := by unfold fragmentCount at hcount; omega
    obtain ⟨t, hstep, ht, hq⟩ := step_later_collects h hj hl hp hmore
    exact run_succ_of_quiet hstep hq (ih (j + 1) t (by omega) (by omega) ht hq.pending)

end

/-- Settles O39: the first fragment opens the key's state or delivers the message, and the others follow. -/
theorem fragmentedMessageIsReassembled : Obligations.FragmentedMessageIsReassembled := by
  intro s times id seq l rest h hs hfed hroom hl hp
  suffices hrun : ∃ t, Host.Core.run Sys2Proof.core (fragmentCount l.length) s = .next t ∧
      Delivered s t (times (fragmentCount l.length - 1)) id l rest by
    obtain ⟨t, hrun, hout, hmcount, hmlen, hmbuf, hslot, hrunning, hpending⟩ := hrun
    exact ⟨t, hrun, hout, hmcount, hmlen, hmbuf, hslot, hrunning, hpending⟩
  rw [fragmentEvents_eq] at hp
  by_cases hshort : l.length ≤ 6
  · have hone : fragmentCount l.length = 1 := by unfold fragmentCount; omega
    rw [hone] at hp ⊢
    obtain ⟨t, hstep, hd⟩ := step_first_delivers h hs hfed hroom hl hp hshort
    exact ⟨t, run_succ hstep 0, hd⟩
  · obtain ⟨r, hr⟩ : ∃ r, fragmentCount l.length = r + 1 + 1 := ⟨fragmentCount l.length - 2, by
      unfold fragmentCount; omega⟩
    rw [hr] at hp
    obtain ⟨t, hstep, ht, hq⟩ := step_first_collects h hs hfed hroom hl hp (by omega)
    have hlater := run_later_fragments (times := times) hl r 1 t le_rfl (by omega) ht hq.pending
    rw [hr] at hlater ⊢
    exact run_succ_of_quiet hstep hq hlater

end Sys2Proof.Machine
end
